-- ==== Sys2Proof/Word.lean ====
section
/-! DEFINITION. The two bit-vector types of the machine (spec/00_scope.md R7).

A byte is 8 bits (decision D30) and a word is 32 bits, two's complement (XLEN = 32, decision D1; log 5). -/

namespace Sys2Proof

/-- A byte of the instruction buffer: 8 bits, unsigned (R7). -/
abbrev Byte := BitVec 8

/-- A word: a stack entry, a register, an ALU operand or result, a printed value (R7).
Its signed value is `BitVec.toInt`. -/
abbrev Word := BitVec 32

end Sys2Proof
end

