-- ==== Sys2Proof/Config.lean ====
section
/-! DEFINITION. The build parameters of the core (spec/00_scope.md R5).

"A model takes them as configuration arguments; the defaults below are this spec's own choice and no rule depends on a
default." So a configuration is data; the defaults and what makes a configuration legal are in Machine/Params.lean.
XLEN is fixed at 32 and is `Word` itself. -/

namespace Sys2Proof

/-- `JNZ_W`: the width in bytes of JNZ's immediate, 1 or 2 (R5, R90). -/
inductive JnzWidth where
  /-- one byte: the reference encoding, not normative -/
  | one
  /-- two bytes: the normative width -/
  | two
deriving DecidableEq, Repr

/-- `OPC`: the opcode byte of each of the fourteen mnemonics (R5, R85). -/
structure OpcodeMap where
  nop   : Byte
  push  : Byte
  pop   : Byte
  load  : Byte
  store : Byte
  jmp   : Byte
  jz    : Byte
  jnz   : Byte
  add   : Byte
  sub   : Byte
  mul   : Byte
  div   : Byte
  print : Byte
  stop  : Byte
deriving DecidableEq, Repr

/-- The parameters of R5. -/
structure Config where
  /-- `MAX_INSTS`: the instruction buffer's capacity in bytes -/
  maxInsts  : Nat
  /-- `STACK_SIZE`: the operand stack's capacity in words -/
  stackSize : Nat
  /-- `NREGS`: the number of registers -/
  nregs     : Nat
  /-- `OPC` -/
  opc       : OpcodeMap
  /-- `JNZ_W` -/
  jnzW      : JnzWidth
deriving DecidableEq, Repr

end Sys2Proof
end

