-- ==== Sys2Proof/Syntax.lean ====
section
/-! DEFINITION. The instruction set as syntax (spec/30_encoding.md R81, R86): one constructor of `Instr` per row of
spec/opcode_table.json. An immediate is an integer (R83: "`imm = sext_(8w)(u)`, an integer"); which integers an
encoding admits is `Instr.wellFormed` (WellFormed.lean). -/

namespace Sys2Proof

/-- The fourteen mnemonics, in the table's order (R86). -/
inductive Mnemonic where
  | nop | push | pop | load | store | jmp | jz | jnz | add | sub | mul | div | print | stop
deriving DecidableEq, Repr

/-- The four formats of R81: the opcode byte followed by an immediate of 0, 1, 2 or 4 bytes. -/
inductive Format where
  | z | b | h | w
deriving DecidableEq, Repr

/-- The three widths `MemRead` has (10_state.md R38; 93_implementation_defined.md U4: "a three-valued type, so the case
cannot be written"). -/
inductive AccessWidth where
  | one | two | four
deriving DecidableEq, Repr

/-- An instruction with its decoded, sign-extended immediate. -/
inductive Instr where
  /-- NOP, R130 -/
  | nop
  /-- PUSH n, R131 -/
  | push (n : Int)
  /-- POP, R132 -/
  | pop
  /-- LOAD r, R140 -/
  | load (r : Int)
  /-- STORE r, R141 -/
  | store (r : Int)
  /-- JMP a, R150 -/
  | jmp (a : Int)
  /-- JZ a, R151 -/
  | jz (a : Int)
  /-- JNZ a, R152 -/
  | jnz (a : Int)
  /-- ADD, R161 -/
  | add
  /-- SUB, R162 -/
  | sub
  /-- MUL, R163 -/
  | mul
  /-- DIV, R164 -/
  | div
  /-- PRINT, R180 -/
  | print
  /-- STOP, R181 -/
  | stop
deriving DecidableEq, Repr

end Sys2Proof
end

