-- ==== Sys2Proof/Machine/Memory.lean ====
section
/-! DEFINITION. The instruction buffer's bytes as a canonical list of cells (spec/10_state.md R21, R38, R41).

Canonical: addresses strictly rising, and no cell holds 0x00, which is what an unlisted address reads as, because reset
fills the buffer with 0x00 (R41; log 11). Equal buffers are then equal lists. -/

namespace Sys2Proof

/-- The bytes of the instruction buffer. -/
abbrev Memory := List Host.Cell

/-- What an unlisted address reads as: "`instructions[a]`, every `a` ... 0x00" (R41). -/
def Memory.unlisted : Byte := 0x00#8

/-- The byte at an address. -/
def Memory.read : Memory → Nat → Byte
  | [], _ => Memory.unlisted
  | (a, b) :: m, x => if x = a then b else Memory.read m x

/-- Write one byte and keep the canonical form. Used by the host event LOAD only: no instruction writes this space
(20_memory.md R64). -/
def Memory.write : Memory → Nat → Byte → Memory
  | [], x, v => if v = Memory.unlisted then [] else [(x, v)]
  | (a, b) :: m, x, v =>
    if x < a then (if v = Memory.unlisted then (a, b) :: m else (x, v) :: (a, b) :: m)
    else if x = a then (if v = Memory.unlisted then m else (x, v) :: m)
    else (a, b) :: Memory.write m x v

/-- Write consecutive bytes upwards from an address. -/
def Memory.writeBytes : Memory → Nat → List Byte → Memory
  | m, _, [] => m
  | m, a, b :: bs => Memory.writeBytes (Memory.write m a b) (a + 1) bs

/-- Canonical from address `lo` on: rising addresses, none below `lo`, no cell equal to what is unlisted. -/
def Memory.wfFrom : Nat → Memory → Bool
  | _, [] => true
  | lo, (a, b) :: m => decide (lo ≤ a) && decide (b ≠ Memory.unlisted) && Memory.wfFrom (a + 1) m

/-- The canonical form. -/
def Memory.wf (m : Memory) : Bool := Memory.wfFrom 0 m

/-- Every listed address lies below `n`: the buffer has the addresses `0 .. MAX_INSTS-1` and no other (R21). -/
def Memory.below (n : Nat) : Memory → Bool
  | [] => true
  | (a, _) :: m => decide (a < n) && Memory.below n m

/-- The number of bytes of an access (R38, R56). -/
def AccessWidth.bytes : AccessWidth → Nat
  | .one => 1
  | .two => 2
  | .four => 4

/-- The little-endian number of `n` bytes at an address: the sum of `instructions[addr+k] * 256^k` (R38, R52). -/
def Memory.readLE (m : Memory) : Nat → Nat → Nat
  | _, 0 => 0
  | addr, n + 1 => (Memory.read m addr).toNat + 256 * Memory.readLE m (addr + 1) n

/-- `MemRead(addr, n)` for `n` in 1, 2, 4 (R38). Its range precondition is the check of R111 or R113. -/
def Memory.memRead (m : Memory) (addr : Nat) (w : AccessWidth) : Nat := Memory.readLE m addr w.bytes

end Sys2Proof
end

