-- ==== Sys2Proof/Machine/Params.lean ====
section
/-! DEFINITION. The opcode map as a function, the default parameters, and what makes a configuration legal
(spec/00_scope.md R5; spec/30_encoding.md R85, R86). -/

namespace Sys2Proof

/-- The fourteen mnemonics in the order of the table of R86. -/
def Mnemonic.all : List Mnemonic :=
  [.nop, .push, .pop, .load, .store, .jmp, .jz, .jnz, .add, .sub, .mul, .div, .print, .stop]

/-- `OPC(m)` (R5). -/
def OpcodeMap.byte (o : OpcodeMap) : Mnemonic → Byte
  | .nop   => o.nop
  | .push  => o.push
  | .pop   => o.pop
  | .load  => o.load
  | .store => o.store
  | .jmp   => o.jmp
  | .jz    => o.jz
  | .jnz   => o.jnz
  | .add   => o.add
  | .sub   => o.sub
  | .mul   => o.mul
  | .div   => o.div
  | .print => o.print
  | .stop  => o.stop

/-- `OPC^-1(b)`: the mnemonic whose opcode byte is `b`, none when `b` is not in the image of `OPC` (R112).
Unique where `OPC` is injective. -/
def OpcodeMap.mnemonicOf (o : OpcodeMap) (b : Byte) : Option Mnemonic :=
  Mnemonic.all.find? (fun m => o.byte m == b)

/-- The default `OPC`: NOP = 0x00 to STOP = 0x0D in table order (R85, R86; decision D5). -/
def OpcodeMap.standard : OpcodeMap where
  nop   := 0x00#8
  push  := 0x01#8
  pop   := 0x02#8
  load  := 0x03#8
  store := 0x04#8
  jmp   := 0x05#8
  jz    := 0x06#8
  jnz   := 0x07#8
  add   := 0x08#8
  sub   := 0x09#8
  mul   := 0x0A#8
  div   := 0x0B#8
  print := 0x0C#8
  stop  := 0x0D#8

/-- The defaults of R5 (decisions D5 to D8, D10; log 2). -/
def Config.standard : Config where
  maxInsts  := 65536
  stackSize := 256
  nregs     := 16
  opc       := OpcodeMap.standard
  jnzW      := .two

/-- The constraints of R5: every capacity at least 1, `OPC` injective. (`JNZ_W` in 1, 2 holds by its type.) -/
def Config.legal (c : Config) : Bool :=
  decide (1 ≤ c.maxInsts) && decide (1 ≤ c.stackSize) && decide (1 ≤ c.nregs) &&
    decide ((Mnemonic.all.map c.opc.byte).Nodup)

end Sys2Proof
end

