-- ==== Sys2Proof/Machine/Bits.lean ====
section
/-! DEFINITION. Extension, wrapping and byte order (spec/00_scope.md R8; spec/20_memory.md R52; spec/30_encoding.md
R83, R94). Arithmetic is on integers and is narrowed once. -/

namespace Sys2Proof

/-- `sext_N(u)`: the `N`-bit unsigned number `u` read as two's complement (R8). -/
def sext (bits : Nat) (u : Nat) : Int :=
  if u < 2 ^ (bits - 1) then (u : Int) else (u : Int) - 2 ^ bits

/-- `wrap32(z)`: the word congruent to `z` modulo 2^32 (R8, R165). -/
def wrap32 (z : Int) : Word := BitVec.ofInt 32 z

/-- The `n` low-order bytes of `v mod 2^(8n)`, least significant first (R94). -/
def leBytes : Nat → Int → List Byte
  | 0, _ => []
  | n + 1, v => BitVec.ofInt 8 v :: leBytes n (v / 256)

/-- The `n` low-order bytes of the number `w`, least significant first. -/
def bytesOfNat : Nat → Nat → List Byte
  | 0, _ => []
  | n + 1, w => BitVec.ofNat 8 w :: bytesOfNat n (w / 256)

/-- `v` is a value an immediate of `bits` bits can hold: `-2^(bits-1) <= v < 2^(bits-1)` (R94). -/
def fitsSigned (bits : Nat) (v : Int) : Bool :=
  decide (-(2 ^ (bits - 1) : Int) ≤ v) && decide (v < 2 ^ (bits - 1))

end Sys2Proof
end

