-- ==== Sys2Proof/Machine/Formats.lean ====
section
/-! DEFINITION. The encoding tables of spec/30_encoding.md: each mnemonic's format (R81, R86), each format's immediate
width (R81, R82) and an instruction's mnemonic and operand. -/

namespace Sys2Proof

/-- The row of the opcode table an instruction belongs to. -/
def Instr.mnemonic : Instr → Mnemonic
  | .nop     => .nop
  | .push _  => .push
  | .pop     => .pop
  | .load _  => .load
  | .store _ => .store
  | .jmp _   => .jmp
  | .jz _    => .jz
  | .jnz _   => .jnz
  | .add     => .add
  | .sub     => .sub
  | .mul     => .mul
  | .div     => .div
  | .print   => .print
  | .stop    => .stop

/-- An instruction's immediate, none for format Z: "No instruction has more than one immediate" (R80). -/
def Instr.operand : Instr → Option Int
  | .nop     => none
  | .push n  => some n
  | .pop     => none
  | .load r  => some r
  | .store r => some r
  | .jmp a   => some a
  | .jz a    => some a
  | .jnz a   => some a
  | .add     => none
  | .sub     => none
  | .mul     => none
  | .div     => none
  | .print   => none
  | .stop    => none

/-- The instruction of a mnemonic with a decoded immediate (not used by a mnemonic of format Z). -/
def Instr.build (m : Mnemonic) (imm : Int) : Instr :=
  match m with
  | .nop   => .nop
  | .push  => .push imm
  | .pop   => .pop
  | .load  => .load imm
  | .store => .store imm
  | .jmp   => .jmp imm
  | .jz    => .jz imm
  | .jnz   => .jnz imm
  | .add   => .add
  | .sub   => .sub
  | .mul   => .mul
  | .div   => .div
  | .print => .print
  | .stop  => .stop

/-- The format of a mnemonic (R81, R86); JNZ's is B under the non-normative `JNZ_W = 1` (R90, R152). -/
def Mnemonic.format (c : Config) : Mnemonic → Format
  | .nop   => .z
  | .push  => .w
  | .pop   => .z
  | .load  => .b
  | .store => .b
  | .jmp   => .h
  | .jz    => .h
  | .jnz   => match c.jnzW with | .one => .b | .two => .h
  | .add   => .z
  | .sub   => .z
  | .mul   => .z
  | .div   => .z
  | .print => .z
  | .stop  => .z

/-- How a format's immediate is read, none for format Z (R81). -/
def Format.access : Format → Option AccessWidth
  | .z => none
  | .b => some .one
  | .h => some .two
  | .w => some .four

/-- The immediate width in bytes (R81). -/
def Format.width : Format → Nat
  | .z => 0
  | .b => 1
  | .h => 2
  | .w => 4

/-- `width(m)` (R82). -/
def Mnemonic.width (c : Config) (m : Mnemonic) : Nat := (m.format c).width

/-- The instruction's length in bytes, `1 + w` (R89). -/
def Mnemonic.len (c : Config) (m : Mnemonic) : Nat := 1 + m.width c

end Sys2Proof
end

