-- ==== Sys2Proof/WellFormed.lean ====
section
/-! DEFINITION. Which instructions can be encoded: "An operand is encodable when `-2^(8w-1) <= v < 2^(8w-1)`"
(spec/30_encoding.md R94), with `w` the immediate width of the instruction (R82, R84).

A register index outside the bank or a target outside the buffer is NOT ill-formed: it encodes, and the instruction
raises its fatal condition when it runs (R87). -/

namespace Sys2Proof

/-- The instruction's immediate fits its field. -/
def Instr.wellFormed (c : Config) : Instr → Bool
  | .nop     => true
  | .push n  => fitsSigned 32 n
  | .pop     => true
  | .load r  => fitsSigned 8 r
  | .store r => fitsSigned 8 r
  | .jmp a   => fitsSigned 16 a
  | .jz a    => fitsSigned 16 a
  | .jnz a   => match c.jnzW with | .one => fitsSigned 8 a | .two => fitsSigned 16 a
  | .add     => true
  | .sub     => true
  | .mul     => true
  | .div     => true
  | .print   => true
  | .stop    => true

end Sys2Proof
end

