-- ==== Sys2Proof/Decode.lean ====
section
/-! DEFINITION. The bytecode instruction decoder (spec/30_encoding.md R83, R93) and the encoder (R94).

The decoder is total on any bytes: an opcode byte outside `OPC`, a fetch outside the buffer and an immediate that would
cross its end are results of their own. The encoder is written from the same tables (Machine/Formats.lean). -/

namespace Sys2Proof

/-- What the decoder answers (R93; 10_state.md R40). -/
inductive DecodeResult where
  /-- the opcode byte's address is at or beyond `MAX_INSTS` -/
  | fetchOutOfRange
  /-- the opcode byte is none of the fourteen -/
  | unknown (b : Byte)
  /-- an immediate byte would lie at or beyond `MAX_INSTS` -/
  | extentOutOfRange (m : Mnemonic)
  /-- an instruction, and the address of the byte after it -/
  | inst (i : Instr) (next : Nat)
deriving DecidableEq, Repr

/-- The immediate of mnemonic `m` whose opcode byte stands at `pc0`: `sext_(8w)(MemRead(pc0+1, w))` (R83, R84); 0, and
unused, where the format has no immediate. -/
def immediateAt (c : Config) (buf : Memory) (pc0 : Nat) (m : Mnemonic) : Int :=
  match (m.format c).access with
  | none   => 0
  | some w => sext (8 * w.bytes) (Memory.memRead buf (pc0 + 1) w)

/-- `decode(pc0)` (R93), phases 1 to 3 of the step (40_execution_step.md R110 to R113). -/
def decode (c : Config) (buf : Memory) (pc0 : Nat) : DecodeResult :=
  if c.maxInsts ≤ pc0 then .fetchOutOfRange
  else
    match c.opc.mnemonicOf (Memory.read buf pc0) with
    | none => .unknown (Memory.read buf pc0)
    | some m =>
      if c.maxInsts < pc0 + m.len c then .extentOutOfRange m
      else .inst (Instr.build m (immediateAt c buf pc0 m)) (pc0 + m.len c)

/-- The bytes of an instruction in address order: `OPC(m)`, then the `w` low-order bytes of its operand, least
significant first (R94). -/
def encode (c : Config) (i : Instr) : List Byte :=
  c.opc.byte i.mnemonic ::
    match i.operand with
    | none   => []
    | some v => leBytes (i.mnemonic.width c) v

/-- The longest instruction has five bytes (R81, format W). -/
def longestInstr : Nat := 5

/-- The bytes an instruction word of the opcode table stands for, in address order: bit 0 is the least significant bit
of the first byte (R81: "the byte at `pc0` is bits 7:0"), and every bit from `nbits` on is 0. -/
def tableBytes (nbits w : Nat) : List Byte := bytesOfNat longestInstr (w % 2 ^ nbits)

/-- The instruction the decoder reads from an instruction word of the opcode table, under the default `OPC`, in which the
table is written. -/
def decodeTableWord (nbits w : Nat) : Option Instr :=
  match decode Config.standard (Memory.writeBytes [] 0 (tableBytes nbits w)) 0 with
  | .fetchOutOfRange    => none
  | .unknown _          => none
  | .extentOutOfRange _ => none
  | .inst i _           => some i

end Sys2Proof
end

