-- ==== Sys2Proof/Machine/State.lean ====
section
/-! DEFINITION. The architectural state (spec/10_state.md R20 to R28), the reasons a step can stop, and the state after
RESET (R41). -/

namespace Sys2Proof.Machine

/-- The run status (R26). -/
inductive Status where
  /-- reset done, no run started -/
  | idle
  /-- the execution loop takes steps -/
  | running
  /-- a STOP was executed -/
  | halted
  /-- a fatal condition was raised -/
  | faulted
deriving DecidableEq, Repr

/-- The seven fatal conditions (60_exceptions.md R191), in the order of their codes 1 to 7. -/
inductive FatalKind where
  | resourceExhausted
  | resourceUnderflow
  | invalidRegister
  | invalidAddress
  | invalidOpcode
  | programLoadFailure
  | arithmeticFault
deriving DecidableEq, Repr

/-- The state of the core: the eight items of R20, and the configuration it was built with.
`sp` is `State.sp` (Machine/Ops.lean): the number of live words of `stack`. -/
structure State where
  /-- The build parameters (00_scope.md R5). The model's own field: no step and no event changes it (log 1). -/
  cfg          : Config
  /-- The instruction buffer (R21). -/
  instructions : Memory
  /-- The live words of the operand stack, the top (`stack[sp-1]`) first, the bottom (`stack[0]`) last (R22; log 3). -/
  stack        : List Word
  /-- The register bank `x[0] .. x[NREGS-1]`, in index order (R23). -/
  registers    : List Word
  /-- The instruction pointer, also written pc (R24). -/
  ip           : Nat
  /-- The run status (R26). -/
  status       : Status
  /-- `fault_kind` of the fault record; none is code 0 (R27; log 6). -/
  faultKind    : Option FatalKind
  /-- `fault_pc` of the fault record (R27). -/
  faultPc      : Nat
  /-- `fault_info` of the fault record (R27). -/
  faultInfo    : Int
  /-- The output stream, the oldest word first (R28). -/
  out          : List Word
deriving DecidableEq, Repr

/-- Why no step is taken: "No step is taken when `status` is IDLE, HALTED or FAULTED" (40_execution_step.md R120). Raised
by `step` only, never by an instruction's meaning. Safe: the machine takes no step there either (log 7). The fatal
conditions of the spec are no faults of this type: taking one is a next state with `status = faulted`. -/
inductive Fault where
  /-- `step` in IDLE: no run has been started. Safe. -/
  | stepBeforeStart
  /-- `step` in HALTED: the run ended with a STOP. Safe. -/
  | stepAfterHalt
  /-- `step` in FAULTED: the run ended with a fatal condition. Safe. -/
  | stepAfterFault
deriving DecidableEq, Repr

/-- Why a request has no meaning. -/
inductive Refusal where
  /-- An instruction without a meaning yet, by its mnemonic. Raised by no arm of `exec`: every instruction has one. Safe. -/
  | notModelled (mnemonic : String)
  /-- A second LOAD between RESET and START: "a model refuses a launch that contains one" (70_reset_and_hazards.md R232,
  decision D37). Raised by `drive` (Machine/Session.lean), never by an instruction. Safe. -/
  | secondLoad
deriving DecidableEq, Repr

/-- The state after RESET of a core built with configuration `c` (R41, 70_reset_and_hazards.md R230). -/
def State.resetOf (c : Config) : State where
  cfg          := c
  instructions := []
  stack        := []
  registers    := List.replicate c.nregs 0#32
  ip           := 0
  status       := .idle
  faultKind    := none
  faultPc      := 0
  faultInfo    := 0
  out          := []

/-- The state after RESET of the core with the default parameters (R41; log 2). -/
def State.reset : State := State.resetOf Config.standard

end Sys2Proof.Machine
end

