-- ==== Sys2Proof/Machine/Ops.lean ====
section
/-! DEFINITION. The accessors of the stack and register file controller (spec/10_state.md R34 to R37), the output and
control writes (R28, R24), and the taking of a fatal condition (40_execution_step.md R118, 60_exceptions.md R201).

The accessors' preconditions are checked first, by Machine/Operands.lean: "the check of each accessor is hoisted into the
check phase of the instruction". There is no return from a fatal condition to model beside its entry (60_exceptions.md
R203: "There is no return from a fatal condition and no nesting"). -/

namespace Sys2Proof.Machine

/-- What one step or one meaning answers. -/
abbrev Result := Host.Outcome State Fault Refusal

/-- `sp`: the "count of live stack entries" (R25). -/
def State.sp (s : State) : Nat := s.stack.length

/-- `stack[i]` for a live index `i < sp`, counted from the bottom; a stale index has no value (R22, R33; decision D26). -/
def State.stackAt (s : State) (i : Nat) : Option Word := s.stack.reverse[i]?

/-- `Top()` (R36): `stack[sp-1]`; none where the precondition `sp >= 1` fails. -/
def State.top (s : State) : Option Word := s.stack.head?

/-- `Second()` (R36): `stack[sp-2]`; none where the precondition `sp >= 2` fails. -/
def State.second (s : State) : Option Word := s.stack[1]?

/-- `Push(v)` (R34). -/
def State.push (v : Word) (s : State) : State := { s with stack := v :: s.stack }

/-- `Pop()` (R35). -/
def State.pop (s : State) : State := { s with stack := s.stack.tail }

/-- `SetSecond(v)` (R36): write `stack[sp-2]`; the precondition is `sp >= 2`. -/
def State.setSecond (v : Word) (s : State) : State := { s with stack := s.stack.set 1 v }

/-- `x[i]` (R37). The precondition is `i < NREGS`; outside the bank the model reads 0 (log 4). -/
def State.readReg (s : State) (i : Nat) : Word := s.registers.getD i 0#32

/-- `x[i] <- v` (R37). The precondition is `i < NREGS`. -/
def State.writeReg (i : Nat) (v : Word) (s : State) : State := { s with registers := s.registers.set i v }

/-- `Emit(v)` (R28). -/
def State.emit (v : Word) (s : State) : State := { s with out := s.out ++ [v] }

/-- `pc <- target` (R24). -/
def State.setIp (t : Nat) (s : State) : State := { s with ip := t }

/-- `pc <- next` for an instruction of mnemonic `m`: `next = pc0 + 1 + w` (40_execution_step.md R113, R117). The state is
one whose `ip` is still `pc0`. -/
def State.advance (m : Mnemonic) (s : State) : State := s.setIp (s.ip + m.len s.cfg)

/-- `status <- HALTED` (45_output_halt.md R181). -/
def State.halt (s : State) : State := { s with status := .halted }

/-- What a fatal condition writes: `status` and the three fields of the fault record, and nothing else. `ip` is still
`pc0` (40_execution_step.md R118; decision D15). -/
def State.faultedWith (k : FatalKind) (info : Int) (s : State) : State :=
  { s with status := .faulted, faultKind := some k, faultPc := s.ip, faultInfo := info }

/-- `raise K(info)`: end the step with the fatal condition (R118). Taking it IS a next state. -/
def raise (k : FatalKind) (info : Int) (s : State) : Result := .next (s.faultedWith k info)

end Sys2Proof.Machine
end

