-- ==== Sys2Proof/Machine/Operands.lean ====
section
/-! DEFINITION. The checks of the instructions and the operands they give (spec/40_execution_step.md R116,
60_exceptions.md R192 to R195, R198).

Each check takes what runs when it passes; otherwise it raises its fatal condition and nothing else happens. A meaning
nests its checks in the order its rule lists them, so the first that fails decides. -/

namespace Sys2Proof.Machine

/-- `0 <= imm < NREGS`, else InvalidRegister(imm) (R194). -/
def needRegister (r : Int) (s : State) (k : Nat → Result) : Result :=
  if 0 ≤ r ∧ r < s.cfg.nregs then k r.toNat else raise .invalidRegister r s

/-- `0 <= imm < MAX_INSTS`, else InvalidAddress(imm) (R195(a)). -/
def needTarget (a : Int) (s : State) (k : Nat → Result) : Result :=
  if 0 ≤ a ∧ a < s.cfg.maxInsts then k a.toNat else raise .invalidAddress a s

/-- `sp < STACK_SIZE`, else ResourceExhausted(0) (R192). -/
def needRoom (s : State) (k : Result) : Result :=
  if s.sp < s.cfg.stackSize then k else raise .resourceExhausted 0 s

/-- `sp >= 1`, else ResourceUnderflow(0); what runs is given `Top()` (R193; 10_state.md R36). -/
def needTop (s : State) (k : Word → Result) : Result :=
  match s.top with
  | none   => raise .resourceUnderflow 0 s
  | some b => k b

/-- `sp >= 2`, else ResourceUnderflow(0); what runs is given `Second()` and `Top()` (R193; 10_state.md R36). -/
def needTwo (s : State) (k : Word → Word → Result) : Result :=
  match s.second, s.top with
  | some a, some b => k a b
  | some _, none   => raise .resourceUnderflow 0 s
  | none, _        => raise .resourceUnderflow 0 s

/-- `Top() != 0`, else ArithmeticFault(0) (R198). -/
def needNonzero (b : Word) (s : State) (k : Result) : Result :=
  if b = 0#32 then raise .arithmeticFault 0 s else k

end Sys2Proof.Machine
end

