-- ==== Sys2Proof/Machine/Alu.lean ====
section
/-! DEFINITION. ADD, SUB, MUL, DIV (spec/44_alu.md): the exact integer result of second `op` top, narrowed once by
`wrap32` (R165, R166; decisions D2, D3, D4; log 5). -/

namespace Sys2Proof.Machine

/-- `wrap32(a + b)` (R161). -/
def aluAdd (a b : Word) : Word := wrap32 (a.toInt + b.toInt)

/-- `wrap32(a - b)` (R162). -/
def aluSub (a b : Word) : Word := wrap32 (a.toInt - b.toInt)

/-- `wrap32(a * b)` (R163). -/
def aluMul (a b : Word) : Word := wrap32 (a.toInt * b.toInt)

/-- `wrap32(trunc(a / b))` for `b != 0` (R164, R166): `Int.tdiv` rounds toward zero. -/
def aluDiv (a b : Word) : Word := wrap32 (a.toInt.tdiv b.toInt)

/-- `SetSecond(r); Pop(); pc <- next` (R160). -/
def State.replaceTwo (m : Mnemonic) (r : Word) (s : State) : State := ((s.setSecond r).pop).advance m

/-- ADD (R161). -/
def execAdd (s : State) : Result :=
  needTwo s fun a b => .next (s.replaceTwo .add (aluAdd a b))

/-- SUB (R162): the second is the minuend. -/
def execSub (s : State) : Result :=
  needTwo s fun a b => .next (s.replaceTwo .sub (aluSub a b))

/-- MUL (R163). -/
def execMul (s : State) : Result :=
  needTwo s fun a b => .next (s.replaceTwo .mul (aluMul a b))

/-- DIV (R164): the second is the dividend; the depth is checked before the divisor. -/
def execDiv (s : State) : Result :=
  needTwo s fun a b => needNonzero b s <| .next (s.replaceTwo .div (aluDiv a b))

end Sys2Proof.Machine
end

