-- ==== Sys2Proof/Machine/Flags.lean ====
section
/-! DEFINITION. Flags: the core has none (spec/10_state.md R30: "There are no flags, condition codes or predicates").
What stands in their place is the test of the top word that JZ and JNZ make (43_control_transfer.md R151, R152). -/

namespace Sys2Proof.Machine

/-- JZ's condition: the top word is the word 0 (R151). -/
def isZero (top : Word) : Bool := top == 0#32

/-- JNZ's condition: the top word is any other word, positive or negative (R152). -/
def isNonzero (top : Word) : Bool := top != 0#32

end Sys2Proof.Machine
end

