-- ==== Sys2Proof/Machine/ControlTransfer.lean ====
section
/-! DEFINITION. JMP, JZ, JNZ (spec/43_control_transfer.md): absolute byte targets, validated before the stack is looked
at and whether or not the jump is taken (decision D14); the tested word stays on the stack. -/

namespace Sys2Proof.Machine

/-- Write `ip` with the target when the condition holds, else with `next` (40_execution_step.md R117). -/
def State.branch (m : Mnemonic) (taken : Bool) (t : Nat) (s : State) : State :=
  match taken with
  | true  => s.setIp t
  | false => s.advance m

/-- JMP a (R150). -/
def execJmp (a : Int) (s : State) : Result :=
  needTarget a s fun t => .next (s.setIp t)

/-- JZ a (R151). -/
def execJz (a : Int) (s : State) : Result :=
  needTarget a s fun t => needTop s fun b => .next (s.branch .jz (isZero b) t)

/-- JNZ a (R152). -/
def execJnz (a : Int) (s : State) : Result :=
  needTarget a s fun t => needTop s fun b => .next (s.branch .jnz (isNonzero b) t)

end Sys2Proof.Machine
end

