-- ==== Sys2Proof/Machine/OutputHalt.lean ====
section
/-! DEFINITION. PRINT, STOP (spec/45_output_halt.md). -/

namespace Sys2Proof.Machine

/-- PRINT (R180). -/
def execPrint (s : State) : Result :=
  needTop s fun b => .next ((s.emit b).pop.advance .print)

/-- STOP (R181): "always succeeds"; `ip` ends one past the STOP byte (decision D19). -/
def execStop (s : State) : Result := .next (s.advance .stop).halt

end Sys2Proof.Machine
end

