-- ==== Sys2Proof/Machine/RegisterOps.lean ====
section
/-! DEFINITION. LOAD, STORE (spec/42_register_ops.md): the register index is checked before the stack. -/

namespace Sys2Proof.Machine

/-- LOAD r (R140). -/
def execLoad (r : Int) (s : State) : Result :=
  needRegister r s fun i => needRoom s <| .next ((s.push (s.readReg i)).advance .load)

/-- STORE r (R141). -/
def execStore (r : Int) (s : State) : Result :=
  needRegister r s fun i => needTop s fun b => .next ((s.writeReg i b).pop.advance .store)

end Sys2Proof.Machine
end

