-- ==== Sys2Proof/Machine/StackOps.lean ====
section
/-! DEFINITION. NOP, PUSH, POP (spec/41_stack_ops.md). A meaning is phases 4 and 5 of the step (40_execution_step.md
R110): `s.ip` is `pc0`, and the common checks of phases 1 to 3 have passed (log 22). -/

namespace Sys2Proof.Machine

/-- NOP (R130). -/
def execNop (s : State) : Result := .next (s.advance .nop)

/-- PUSH n (R131). -/
def execPush (n : Int) (s : State) : Result :=
  needRoom s <| .next ((s.push (wrap32 n)).advance .push)

/-- POP (R132): the discarded word is not read. -/
def execPop (s : State) : Result :=
  needTop s fun _ => .next (s.pop.advance .pop)

end Sys2Proof.Machine
end

