-- ==== Sys2Proof/Machine/Dispatch.lean ====
section
/-! DEFINITION. The dispatch: "one handler per opcode" (spec/40_execution_step.md R115). -/

namespace Sys2Proof.Machine

def exec (i : Instr) (s : State) : Host.Outcome State Fault Refusal :=
  match i with
  | .nop => Sys2Proof.Machine.execNop s
  | .push n => Sys2Proof.Machine.execPush n s
  | .pop => Sys2Proof.Machine.execPop s
  | .load r => Sys2Proof.Machine.execLoad r s
  | .store r => Sys2Proof.Machine.execStore r s
  | .jmp a => Sys2Proof.Machine.execJmp a s
  | .jz a => Sys2Proof.Machine.execJz a s
  | .jnz a => Sys2Proof.Machine.execJnz a s
  | .add => Sys2Proof.Machine.execAdd s
  | .sub => Sys2Proof.Machine.execSub s
  | .mul => Sys2Proof.Machine.execMul s
  | .div => Sys2Proof.Machine.execDiv s
  | .print => Sys2Proof.Machine.execPrint s
  | .stop => Sys2Proof.Machine.execStop s

end Sys2Proof.Machine
end

