-- ==== Sys2Proof/Machine/Fetch.lean ====
section
/-! DEFINITION. What the step does with the decoder's answer (spec/40_execution_step.md R110 to R113), and what it
answers when no step is taken (R120). -/

namespace Sys2Proof.Machine

/-- The decoder at the instruction pointer. -/
def State.decodeHere (s : State) : DecodeResult := decode s.cfg s.instructions s.ip

/-- Phases 1 to 3 raise InvalidAddress(pc0), InvalidOpcode(b) or InvalidAddress(pc0 + w); otherwise the instruction runs
(R111, R112, R113; decisions D11, D12). -/
def runDecoded (r : DecodeResult) (s : State) : Result :=
  match r with
  | .fetchOutOfRange    => raise .invalidAddress s.ip s
  | .unknown b          => raise .invalidOpcode b.toNat s
  | .extentOutOfRange m => raise .invalidAddress (s.ip + m.width s.cfg : Nat) s
  | .inst i _           => exec i s

/-- One step in the status the machine is in (R110, R120; log 7). -/
def stepIn (st : Status) (s : State) : Result :=
  match st with
  | .running => runDecoded s.decodeHere s
  | .idle    => .fault .stepBeforeStart
  | .halted  => .fault .stepAfterHalt
  | .faulted => .fault .stepAfterFault

/-- The state with bytes placed at the instruction pointer, those that fall inside the buffer (log 26), and running. -/
def State.placeAndRun (bs : List Byte) (s : State) : State :=
  { s with
    instructions := Memory.writeBytes s.instructions s.ip (bs.take (s.cfg.maxInsts - s.ip))
    status := .running }

end Sys2Proof.Machine
end

