-- ==== Sys2Proof/Machine/Step.lean ====
section
/-! DEFINITION. The one transition of the machine (spec/40_execution_step.md R110, R120). -/

namespace Sys2Proof.Machine

/-- One step: one instruction from fetch to commit or to a fatal condition; no step is taken outside RUNNING. -/
def step (s : State) : Host.Outcome State Fault Refusal := stepIn s.status s

/-- `s` with an instruction word of the opcode table stored where the next step fetches, and the run started: from reset
it stands for LOAD and START (log 10). -/
def State.withFetchWord (s : State) (nbits w : Nat) : State := s.placeAndRun (tableBytes nbits w)

end Sys2Proof.Machine
end

