-- ==== Sys2Proof/Machine/Boundary.lean ====
section
/-! DEFINITION. The block boundary: the host's events and what it can read (spec/10_state.md R39; 70_reset_and_hazards.md
R230 to R236, R240; 60_exceptions.md R211, R212). Events land between steps (log 8). -/

namespace Sys2Proof.Machine

/-- The four events the host can deliver (R39). -/
inductive HostEvent where
  /-- RESET, legal always -/
  | reset
  /-- LOAD with the program's bytes, legal in IDLE -/
  | load (prog : List Byte)
  /-- LOAD_FAIL, legal in IDLE -/
  | loadFail
  /-- START, legal in IDLE -/
  | start
deriving DecidableEq, Repr

/-- ProgramLoadFailure: `status <- FAULTED`, `fault_kind <- 6`, `fault_pc <- 0`, `fault_info <- 0` (R233). -/
def State.loadFailed (s : State) : State :=
  { s with status := .faulted, faultKind := some .programLoadFailure, faultPc := 0, faultInfo := 0 }

/-- LOAD in IDLE: the bytes are installed from address 0, exactly as given (R232); a program longer than the buffer is a
failed load, nothing installed (R234; decision D21). -/
def State.install (prog : List Byte) (s : State) : State :=
  if prog.length ≤ s.cfg.maxInsts then { s with instructions := Memory.writeBytes s.instructions 0 prog }
  else s.loadFailed

/-- START in IDLE: `ip <- 0; sp <- 0; status <- RUNNING` (R231). -/
def State.started (s : State) : State := { s with ip := 0, stack := [], status := .running }

/-- An event that only IDLE accepts; in any other status it is ignored (R236). -/
def State.whenIdle (f : State → State) (s : State) : State :=
  match s.status with
  | .idle    => f s
  | .running => s
  | .halted  => s
  | .faulted => s

/-- The effect of one event. A second LOAD before START has no meaning in the spec: `drive` (Machine/Session.lean)
refuses it before it comes here (R232; log 9). -/
def hostEvent (e : HostEvent) (s : State) : State :=
  match e with
  | .reset     => State.resetOf s.cfg
  | .load prog => s.whenIdle (State.install prog)
  | .loadFail  => s.whenIdle State.loadFailed
  | .start     => s.whenIdle State.started

/-- The codes of `status` (R26). -/
def Status.code : Status → Nat
  | .idle    => 0
  | .running => 1
  | .halted  => 2
  | .faulted => 3

/-- The codes 1 to 7 of the fatal conditions (60_exceptions.md R191). -/
def FatalKind.code : FatalKind → Nat
  | .resourceExhausted  => 1
  | .resourceUnderflow  => 2
  | .invalidRegister    => 3
  | .invalidAddress     => 4
  | .invalidOpcode      => 5
  | .programLoadFailure => 6
  | .arithmeticFault    => 7

/-- The STATUS record (R39), with the codes the host reads. -/
structure StatusRecord where
  status    : Nat
  faultKind : Nat
  faultPc   : Nat
  faultInfo : Int
deriving DecidableEq, Repr

/-- STATUS, "readable at any time" (R39): `fault_kind` is 0 where nothing is recorded (R27). -/
def State.readStatus (s : State) : StatusRecord where
  status    := s.status.code
  faultKind := match s.faultKind with | none => 0 | some k => k.code
  faultPc   := s.faultPc
  faultInfo := s.faultInfo

/-- The run has ended: `status` is HALTED or FAULTED, "and at no other point" (R240). -/
def State.ended (s : State) : Bool :=
  match s.status with
  | .idle    => false
  | .running => false
  | .halted  => true
  | .faulted => true

/-- What the host may read of a run that has ended (R39, R240); the live stack is given bottom first. -/
structure RunResult where
  status    : StatusRecord
  out       : List Word
  registers : List Word
  sp        : Nat
  ip        : Nat
  stack     : List Word
deriving DecidableEq, Repr

/-- The result of a run, none before its end: "while `status = RUNNING` the host ... sees only OUT and STATUS" (R39;
decision D34). -/
def State.runResult (s : State) : Option RunResult :=
  match s.ended with
  | false => none
  | true  => some { status := s.readStatus, out := s.out, registers := s.registers, sp := s.sp, ip := s.ip,
                    stack := s.stack.reverse }

/-- The content of the diagnostic of a fatal condition: the fault record, and the opcode byte at `fault_pc` when that
lies in the buffer (60_exceptions.md R211). Its text is not specified. -/
structure Diagnostic where
  kind   : FatalKind
  pc     : Nat
  info   : Int
  opcode : Option Byte
deriving DecidableEq, Repr

/-- The diagnostic of a faulted core (R211). -/
def State.diagnostic (s : State) : Option Diagnostic :=
  match s.faultKind with
  | none   => none
  | some k => some { kind := k, pc := s.faultPc, info := s.faultInfo,
                     opcode := if s.faultPc < s.cfg.maxInsts then some (Memory.read s.instructions s.faultPc) else none }

/-- Whether the process exits with status zero, once the run has ended (60_exceptions.md R212; decision D24). The
particular non-zero value is not specified and not modelled (log 19). -/
def State.exitIsZero (s : State) : Option Bool :=
  match s.status with
  | .idle    => none
  | .running => none
  | .halted  => some true
  | .faulted => some false

/-- The OUT events of a step from `s` to `t`: the words appended to `out` (R39). -/
def outEvents (s t : State) : List Word := t.out.drop s.out.length

end Sys2Proof.Machine
end

