-- ==== Sys2Proof/Machine/Session.lean ====
section
/-! DEFINITION. Runs and sessions: the loop that repeats the step while RUNNING (spec/40_execution_step.md R119), the
launch (70_reset_and_hazards.md R235), and a host's session of events and steps in which a second LOAD before START is
refused (R232; decision D37; log 8, log 9). -/

namespace Sys2Proof.Machine

/-- One turn of the loop: a step while RUNNING, nothing otherwise (R119, R120). -/
def tick (s : State) : Result :=
  match s.status with
  | .running => step s
  | .idle    => .next s
  | .halted  => .next s
  | .faulted => .next s

/-- `k` turns of the loop (R119: "A model's executor therefore runs under fuel"). -/
def runLoop : Nat → State → Result
  | 0, s => .next s
  | k + 1, s =>
    match tick s with
    | .next t    => runLoop k t
    | .fault r   => .fault r
    | .refused r => .refused r

/-- The legal sequence to a run: RESET, LOAD, START (R235). -/
def launch (prog : List Byte) (s : State) : State :=
  hostEvent .start (hostEvent (.load prog) (hostEvent .reset s))

/-- What happens next in a session: an event of the host, or a turn of the core's loop. -/
inductive SessionItem where
  | event (e : HostEvent)
  | turn
deriving DecidableEq, Repr

/-- Whether the host has been given a LOAD since the last RESET, after an event delivered in status `st`: "A program is
loaded at most once per reset" (R232). This is the host's own record, not state of the core (decision D37). -/
def loadedAfter (e : HostEvent) (st : Status) (loaded : Bool) : Bool :=
  match e with
  | .reset    => false
  | .load _   => loaded || st == .idle
  | .loadFail => loaded
  | .start    => loaded

/-- The event is a LOAD that IDLE would accept a second time (R232). -/
def isSecondLoad (e : HostEvent) (st : Status) (loaded : Bool) : Bool :=
  match e with
  | .reset    => false
  | .load _   => loaded && st == .idle
  | .loadFail => false
  | .start    => false

/-- A session, from a state in which `loaded` says whether a LOAD has been accepted since the last RESET. -/
def drive : Bool → List SessionItem → State → Result
  | _, [], s => .next s
  | loaded, .event e :: rest, s =>
    match isSecondLoad e s.status loaded with
    | true  => .refused .secondLoad
    | false => drive (loadedAfter e s.status loaded) rest (hostEvent e s)
  | loaded, .turn :: rest, s =>
    match tick s with
    | .next t    => drive loaded rest t
    | .fault r   => .fault r
    | .refused r => .refused r

end Sys2Proof.Machine
end

