-- ==== Sys2Proof/Machine/Text.lean ====
section
/-! DEFINITION. The text of the output stream (spec/45_output_halt.md R182; decision D23; log 18). -/

namespace Sys2Proof.Machine

/-- The character of a decimal digit 0 to 9. -/
def digitChar (d : Nat) : Char := Char.ofNat (48 + d)

/-- The decimal digits of `n`, most significant first, in front of `acc`; the first argument bounds their number. -/
def digitsAux : Nat → Nat → List Nat → List Nat
  | 0, _, acc => acc
  | k + 1, n, acc => if n / 10 = 0 then n % 10 :: acc else digitsAux k (n / 10) (n % 10 :: acc)

/-- "the shortest decimal numeral ... with no leading zeros": at most ten digits, since the magnitude of a word is at most
2^31. -/
def digits (n : Nat) : List Nat := digitsAux 10 n []

/-- A word's characters, followed by the line terminator 0x0A (R182). -/
def renderWord (v : Word) : List Char :=
  (if v.toInt < 0 then ['-'] else []) ++ (digits v.toInt.natAbs).map digitChar ++ ['\n']

/-- The text of an output stream: the image of `out` under R182. -/
def renderOut (out : List Word) : List Char := out.flatMap renderWord

end Sys2Proof.Machine
end

