-- ==== Sys2Proof/Safety.lean ====
section
/-! DEFINITION. What the claims are stated in: the machine's invariant (spec/10_state.md R29), the fault record's columns
(60_exceptions.md R191) and the priority table of the fatal conditions (60_exceptions.md R200), each written from its own
rule and not from the step. -/

namespace Sys2Proof.Machine

/-- The invariant of every state a core can be in (R29, R21, R23, R27, and R231: IDLE is reached only by RESET). -/
structure State.Inv (s : State) : Prop where
  /-- the configuration is legal (00_scope.md R5) -/
  legal      : s.cfg.legal = true
  /-- the buffer's list is canonical -/
  canonical  : Memory.wf s.instructions = true
  /-- the buffer has no address beyond its capacity (R21) -/
  inBuffer   : Memory.below s.cfg.maxInsts s.instructions = true
  /-- there are NREGS registers (R23) -/
  bank       : s.registers.length = s.cfg.nregs
  /-- `0 <= sp <= STACK_SIZE` (R29(a)) -/
  spBound    : s.sp ≤ s.cfg.stackSize
  /-- `0 <= ip <= MAX_INSTS` (R29(b)) -/
  ipBound    : s.ip ≤ s.cfg.maxInsts
  /-- the fault record is 0 unless FAULTED (R27) -/
  noRecord   : s.status ≠ .faulted → s.faultKind = none ∧ s.faultPc = 0 ∧ s.faultInfo = 0
  /-- the fault record names a fatal condition when FAULTED (R27) -/
  recorded   : s.status = .faulted → s.faultKind ≠ none
  /-- in IDLE everything but the buffer has its reset value (R231, R236) -/
  idleFresh  : s.status = .idle →
    s.ip = 0 ∧ s.stack = [] ∧ s.out = [] ∧ s.registers = List.replicate s.cfg.nregs 0#32

/-- The bytes `bs` stand in the buffer from address `a` on, in address order (00_scope.md R8). -/
def BytesAt (m : Memory) (a : Nat) (bs : List Byte) : Prop :=
  ∀ k b, bs[k]? = some b → Memory.read m (a + k) = b

/-- The configuration and every byte of the buffer are as they were. -/
def SameBuffer (s t : State) : Prop :=
  t.cfg = s.cfg ∧ ∀ a, Memory.read t.instructions a = Memory.read s.instructions a

/-- `status` and the fault record are as they were. -/
def SameControl (s t : State) : Prop :=
  t.status = s.status ∧ t.faultKind = s.faultKind ∧ t.faultPc = s.faultPc ∧ t.faultInfo = s.faultInfo

/-- `t` is `s` after some fatal condition was taken in it: only `status` and the fault record differ (R118). -/
def RaisedFrom (s t : State) : Prop := ∃ k info, t = s.faultedWith k info

/-- The live entries an instruction needs (R193, R200 order 5). -/
def entriesNeeded : Mnemonic → Nat
  | .nop | .push | .load | .jmp | .stop => 0
  | .pop | .store | .jz | .jnz | .print => 1
  | .add | .sub | .mul | .div           => 2

/-- The instructions that push (R192). -/
def pushes : Mnemonic → Bool
  | .push | .load => true
  | .nop | .pop | .store | .jmp | .jz | .jnz | .add | .sub | .mul | .div | .print | .stop => false

/-- The instructions whose immediate is a register index (R194). -/
def namesRegister : Mnemonic → Bool
  | .load | .store => true
  | .nop | .push | .pop | .jmp | .jz | .jnz | .add | .sub | .mul | .div | .print | .stop => false

/-- The instructions whose immediate is a jump target (R195(a)). -/
def namesTarget : Mnemonic → Bool
  | .jmp | .jz | .jnz => true
  | .nop | .push | .pop | .load | .store | .add | .sub | .mul | .div | .print | .stop => false

/-- The mnemonic whose opcode byte stands at an address of the buffer, none where it is no opcode (R112). -/
def State.opcodeAt (s : State) (a : Nat) : Option Mnemonic := s.cfg.opc.mnemonicOf (Memory.read s.instructions a)

/-- InvalidAddress from the fetch bound (R195(b)): the only cause with `fault_pc >= MAX_INSTS`. -/
def State.causeFetchBound (s : State) : Prop := s.cfg.maxInsts ≤ s.faultPc ∧ s.faultInfo = s.faultPc

/-- InvalidAddress from the extent check (R195(c)): `fault_pc < MAX_INSTS` and `fault_info = fault_pc + w >= MAX_INSTS`,
with `w` the immediate width of the opcode at `fault_pc`. -/
def State.causeExtent (s : State) : Prop :=
  s.faultPc < s.cfg.maxInsts ∧ s.cfg.maxInsts ≤ s.faultInfo ∧
    ∃ m, s.opcodeAt s.faultPc = some m ∧ s.faultInfo = s.faultPc + m.width s.cfg

/-- InvalidAddress from a jump target (R195(a)): `fault_info` is the target, a sign-extended immediate outside the buffer. -/
def State.causeTarget (s : State) : Prop :=
  s.faultPc < s.cfg.maxInsts ∧
    ((-32768 ≤ s.faultInfo ∧ s.faultInfo ≤ -1) ∨ (s.cfg.maxInsts ≤ s.faultInfo ∧ s.faultInfo ≤ 32767)) ∧
    ∃ m, s.opcodeAt s.faultPc = some m ∧ namesTarget m = true ∧
      s.faultInfo = immediateAt s.cfg s.instructions s.faultPc m

/-- The row of R191 for a recorded fatal condition: what raised it, `fault_pc` and `fault_info`. Nothing but `status` and
the record changes (R118), so the row is read in the faulted state itself. -/
def State.RecordFits (s : State) : FatalKind → Prop
  | .resourceExhausted  =>
    s.faultPc = s.ip ∧ s.faultInfo = 0 ∧ s.sp = s.cfg.stackSize ∧
      ∃ m, s.opcodeAt s.ip = some m ∧ pushes m = true
  | .resourceUnderflow  =>
    s.faultPc = s.ip ∧ s.faultInfo = 0 ∧ ∃ m, s.opcodeAt s.ip = some m ∧ s.sp < entriesNeeded m
  | .invalidRegister    =>
    s.faultPc = s.ip ∧
      ((-128 ≤ s.faultInfo ∧ s.faultInfo ≤ -1) ∨ (s.cfg.nregs ≤ s.faultInfo ∧ s.faultInfo ≤ 127)) ∧
      ∃ m, s.opcodeAt s.ip = some m ∧ namesRegister m = true ∧
        s.faultInfo = immediateAt s.cfg s.instructions s.ip m
  | .invalidAddress     => s.faultPc = s.ip ∧ (s.causeFetchBound ∨ s.causeExtent ∨ s.causeTarget)
  | .invalidOpcode      =>
    s.faultPc = s.ip ∧ s.faultInfo = (Memory.read s.instructions s.ip).toNat ∧ s.opcodeAt s.ip = none
  | .programLoadFailure => s.faultPc = 0 ∧ s.faultInfo = 0
  | .arithmeticFault    =>
    s.faultPc = s.ip ∧ s.faultInfo = 0 ∧ s.opcodeAt s.ip = some .div ∧ 2 ≤ s.sp ∧ s.stack.head? = some 0#32

/-- One row of the priority table: its condition, and the fatal condition raised when it is the first that holds. -/
structure PriorityRow where
  holds : Bool
  kind  : FatalKind
  info  : Int
deriving DecidableEq, Repr

/-- Orders 4 to 6 of R200 for the instruction of mnemonic `m` with immediate `imm`. -/
def instrRows (m : Mnemonic) (imm : Int) (s : State) : List PriorityRow :=
  [ { holds := namesRegister m && (decide (imm < 0) || decide (s.cfg.nregs ≤ imm)), kind := .invalidRegister, info := imm },
    { holds := namesTarget m && (decide (imm < 0) || decide (s.cfg.maxInsts ≤ imm)), kind := .invalidAddress, info := imm },
    { holds := pushes m && decide (s.cfg.stackSize ≤ s.sp), kind := .resourceExhausted, info := 0 },
    { holds := decide (s.sp < entriesNeeded m), kind := .resourceUnderflow, info := 0 },
    { holds := m == .div && s.stack.head? == some 0#32, kind := .arithmeticFault, info := 0 } ]

/-- The priority table of R200 at the instruction pointer of `s`. -/
def priorityTable (s : State) : List PriorityRow :=
  { holds := decide (s.cfg.maxInsts ≤ s.ip), kind := .invalidAddress, info := s.ip } ::
    match s.opcodeAt s.ip with
    | none   => [{ holds := true, kind := .invalidOpcode, info := (Memory.read s.instructions s.ip).toNat }]
    | some m =>
      { holds := decide (s.cfg.maxInsts < s.ip + 1 + m.width s.cfg), kind := .invalidAddress,
        info := (s.ip + m.width s.cfg : Nat) } ::
        instrRows m (immediateAt s.cfg s.instructions s.ip m) s

/-- The row that decides: "the first in this order whose condition holds" (R200). -/
def firstFatal (s : State) : Option PriorityRow := (priorityTable s).find? (fun r => r.holds)

end Sys2Proof.Machine
end

