-- ==== Sys2Proof/Certificates/Slice0/Obligations.lean ====
section
/-! DEFINITION. The statements for the provers, in the order: reset; the instructions; their frames; the step; the
invariant; the encoding; the host's events; whole runs. "D<n>" is a decision of spec/92_eei_decisions.md. -/

open Sys2Proof Sys2Proof.Machine

/-! Reset -/

/-- After RESET, for every configuration: the table of 10_state.md R41. `status`, the record and `out` are the spec's own
rendering (D16, D17, D18; log 6), the rest is the source's "all fields zeroed". -/
def Obligations.ResetLeavesTheSpecifiedValues : Prop :=
  ∀ (c : Config) (s : State), s = State.resetOf c →
    (∀ a, Memory.read s.instructions a = 0x00#8) ∧
    s.sp = 0 ∧ (∀ i, s.stackAt i = none) ∧
    s.registers.length = c.nregs ∧ (∀ i, i < c.nregs → s.registers[i]? = some 0#32) ∧
    s.ip = 0 ∧ s.status = .idle ∧
    s.readStatus = { status := 0, faultKind := 0, faultPc := 0, faultInfo := 0 } ∧
    s.out = [] ∧ State.reset = State.resetOf Config.standard

/-- The invariant holds after RESET of every legal configuration, the defaults among them. -/
def Obligations.ResetMeetsTheInvariant : Prop :=
  (∀ c : Config, c.legal = true → (State.resetOf c).Inv) ∧ State.reset.Inv

/-! The instructions. Each says what `exec` answers for every state and operand, and what the instruction's bytes are. -/

/-- R130. NOP: one byte, no checks, `pc <- pc0 + 1`; at the last byte of the buffer it leaves `ip = MAX_INSTS`, and the
next step raises InvalidAddress. -/
def Obligations.NopOnlyAdvances : Prop :=
  ∀ s : State,
    encode s.cfg .nop = [s.cfg.opc.nop] ∧
    exec .nop s = .next { s with ip := s.ip + 1 } ∧
    (s.status = .running → s.ip + 1 = s.cfg.maxInsts →
      ∃ info, step { s with ip := s.ip + 1 } = .next (State.faultedWith .invalidAddress info { s with ip := s.ip + 1 }))

/-- R131. PUSH n: five bytes, least significant first; with room it pushes the word `n` and advances by 5; on a full stack
it raises ResourceExhausted(0); cut by the end of the buffer it raises InvalidAddress. -/
def Obligations.PushPushesItsImmediate : Prop :=
  ∀ (n : Int) (s : State),
    encode s.cfg (.push n) =
      [s.cfg.opc.push, BitVec.ofInt 8 n, BitVec.ofInt 8 (n / 256), BitVec.ofInt 8 (n / 65536),
        BitVec.ofInt 8 (n / 16777216)] ∧
    (s.sp < s.cfg.stackSize →
      exec (.push n) s = .next { s with stack := BitVec.ofInt 32 n :: s.stack, ip := s.ip + 5 }) ∧
    (s.cfg.stackSize ≤ s.sp → exec (.push n) s = .next (s.faultedWith .resourceExhausted 0)) ∧
    (s.status = .running → s.ip < s.cfg.maxInsts → s.opcodeAt s.ip = some .push → s.cfg.maxInsts < s.ip + 5 →
      ∃ info, step s = .next (s.faultedWith .invalidAddress info))

/-- R132. POP: one byte; it drops the top and advances by 1; on an empty stack it raises ResourceUnderflow(0). -/
def Obligations.PopDropsTheTop : Prop :=
  ∀ s : State,
    encode s.cfg .pop = [s.cfg.opc.pop] ∧
    (∀ b rest, s.stack = b :: rest → exec .pop s = .next { s with stack := rest, ip := s.ip + 1 }) ∧
    (s.sp = 0 → exec .pop s = .next (s.faultedWith .resourceUnderflow 0))

/-- LOAD r (42_register_ops.md). The index is checked before the stack (D13), and a full stack raises ResourceExhausted
(D29): the spec's decisions (log 13, log 15). -/
def Obligations.LoadPushesTheRegister : Prop :=
  ∀ (r : Int) (s : State),
    encode s.cfg (.load r) = [s.cfg.opc.load, BitVec.ofInt 8 r] ∧
    (∀ (i : Nat) (v : Word), r = i → i < s.cfg.nregs → s.registers[i]? = some v → s.sp < s.cfg.stackSize →
      exec (.load r) s = .next { s with stack := v :: s.stack, ip := s.ip + 2 }) ∧
    (r < 0 ∨ s.cfg.nregs ≤ r → exec (.load r) s = .next (s.faultedWith .invalidRegister r)) ∧
    (0 ≤ r ∧ r < s.cfg.nregs → s.cfg.stackSize ≤ s.sp →
      exec (.load r) s = .next (s.faultedWith .resourceExhausted 0)) ∧
    (s.status = .running → s.ip < s.cfg.maxInsts → s.opcodeAt s.ip = some .load → s.cfg.maxInsts < s.ip + 2 →
      ∃ info, step s = .next (s.faultedWith .invalidAddress info))

/-- R141. STORE r: two bytes; the index is checked, then the stack; the top goes to `x[r]` and is popped; every other
register keeps its value. -/
def Obligations.StoreMovesTheTopToTheRegister : Prop :=
  ∀ (r : Int) (s : State),
    encode s.cfg (.store r) = [s.cfg.opc.store, BitVec.ofInt 8 r] ∧
    (∀ (i : Nat) (b : Word) (rest : List Word), r = i → i < s.cfg.nregs → s.registers.length = s.cfg.nregs →
      s.stack = b :: rest →
      ∃ regs, exec (.store r) s = .next { s with registers := regs, stack := rest, ip := s.ip + 2 } ∧
        regs.length = s.registers.length ∧ regs[i]? = some b ∧ ∀ j, j ≠ i → regs[j]? = s.registers[j]?) ∧
    (r < 0 ∨ s.cfg.nregs ≤ r → exec (.store r) s = .next (s.faultedWith .invalidRegister r)) ∧
    (0 ≤ r ∧ r < s.cfg.nregs → s.sp = 0 → exec (.store r) s = .next (s.faultedWith .resourceUnderflow 0)) ∧
    (s.status = .running → s.ip < s.cfg.maxInsts → s.opcodeAt s.ip = some .store → s.cfg.maxInsts < s.ip + 2 →
      ∃ info, step s = .next (s.faultedWith .invalidAddress info))

/-- R150. JMP a: three bytes; `pc <- a` when `0 <= a < MAX_INSTS`, else InvalidAddress(a); nothing else changes. -/
def Obligations.JmpSetsTheInstructionPointer : Prop :=
  ∀ (a : Int) (s : State),
    encode s.cfg (.jmp a) = [s.cfg.opc.jmp, BitVec.ofInt 8 a, BitVec.ofInt 8 (a / 256)] ∧
    (∀ t : Nat, a = t → t < s.cfg.maxInsts → exec (.jmp a) s = .next { s with ip := t }) ∧
    (a < 0 ∨ s.cfg.maxInsts ≤ a → exec (.jmp a) s = .next (s.faultedWith .invalidAddress a)) ∧
    (s.status = .running → s.ip < s.cfg.maxInsts → s.opcodeAt s.ip = some .jmp → s.cfg.maxInsts < s.ip + 3 →
      ∃ info, step s = .next (s.faultedWith .invalidAddress info))

/-- JZ a (43_control_transfer.md): jumps exactly when the top is the word 0, advances by 3 otherwise, and pops in neither
case. A target outside the buffer raises InvalidAddress before the stack is looked at, taken or not: the spec's decision
D14 (log 13). -/
def Obligations.JzJumpsOnZeroAndDoesNotPop : Prop :=
  ∀ (a : Int) (s : State),
    encode s.cfg (.jz a) = [s.cfg.opc.jz, BitVec.ofInt 8 a, BitVec.ofInt 8 (a / 256)] ∧
    (∀ (t : Nat) (b : Word) (rest : List Word), a = t → t < s.cfg.maxInsts → s.stack = b :: rest →
      (b.toInt = 0 → exec (.jz a) s = .next { s with ip := t }) ∧
      (b.toInt ≠ 0 → exec (.jz a) s = .next { s with ip := s.ip + 3 })) ∧
    (a < 0 ∨ s.cfg.maxInsts ≤ a → exec (.jz a) s = .next (s.faultedWith .invalidAddress a)) ∧
    (0 ≤ a ∧ a < s.cfg.maxInsts → s.sp = 0 → exec (.jz a) s = .next (s.faultedWith .resourceUnderflow 0)) ∧
    (s.status = .running → s.ip < s.cfg.maxInsts → s.opcodeAt s.ip = some .jz → s.cfg.maxInsts < s.ip + 3 →
      ∃ info, step s = .next (s.faultedWith .invalidAddress info))

/-- JNZ a (43_control_transfer.md): jumps exactly when the top is not 0, and pops in neither case. Its length is 3, or 2
under the non-normative `JNZ_W = 1` (log 24); the target is validated first (D14; log 13). -/
def Obligations.JnzJumpsOnNonzeroAndDoesNotPop : Prop :=
  ∀ (a : Int) (s : State) (len : Nat), (s.cfg.jnzW = .two ∧ len = 3) ∨ (s.cfg.jnzW = .one ∧ len = 2) →
    encode s.cfg (.jnz a) = (s.cfg.opc.jnz :: [BitVec.ofInt 8 a, BitVec.ofInt 8 (a / 256)]).take len ∧
    (∀ (t : Nat) (b : Word) (rest : List Word), a = t → t < s.cfg.maxInsts → s.stack = b :: rest →
      (b.toInt ≠ 0 → exec (.jnz a) s = .next { s with ip := t }) ∧
      (b.toInt = 0 → exec (.jnz a) s = .next { s with ip := s.ip + len })) ∧
    (a < 0 ∨ s.cfg.maxInsts ≤ a → exec (.jnz a) s = .next (s.faultedWith .invalidAddress a)) ∧
    (0 ≤ a ∧ a < s.cfg.maxInsts → s.sp = 0 → exec (.jnz a) s = .next (s.faultedWith .resourceUnderflow 0)) ∧
    (s.status = .running → s.ip < s.cfg.maxInsts → s.opcodeAt s.ip = some .jnz → s.cfg.maxInsts < s.ip + len →
      ∃ info, step s = .next (s.faultedWith .invalidAddress info))

/-- R160. The four arithmetic instructions: one byte each; with two live entries the result of second `op` top stands where
the second stood and one entry is popped; with fewer, ResourceUnderflow(0). Which word `op` gives is stated by
AddSubMulWrapModuloTwoToThe32 and DivTruncatesTowardZero. -/
def Obligations.ArithmeticReplacesSecondAndPopsOnce : Prop :=
  ∀ s : State,
    (encode s.cfg .add = [s.cfg.opc.add] ∧ encode s.cfg .sub = [s.cfg.opc.sub] ∧
      encode s.cfg .mul = [s.cfg.opc.mul] ∧ encode s.cfg .div = [s.cfg.opc.div]) ∧
    (∀ a b rest, s.stack = b :: a :: rest →
      exec .add s = .next { s with stack := aluAdd a b :: rest, ip := s.ip + 1 } ∧
      exec .sub s = .next { s with stack := aluSub a b :: rest, ip := s.ip + 1 } ∧
      exec .mul s = .next { s with stack := aluMul a b :: rest, ip := s.ip + 1 } ∧
      (b ≠ 0#32 → exec .div s = .next { s with stack := aluDiv a b :: rest, ip := s.ip + 1 })) ∧
    (s.sp < 2 → ∀ i : Instr, i = .add ∨ i = .sub ∨ i = .mul ∨ i = .div →
      exec i s = .next (s.faultedWith .resourceUnderflow 0))

/-- The arithmetic law of ADD, SUB and MUL (44_alu.md): the exact result reduced modulo 2^32 into the signed range, with
the algebra that follows, and the same bits read as unsigned. The width and the silent wrap are the spec's decisions D1
and D2 (log 5). -/
def Obligations.AddSubMulWrapModuloTwoToThe32 : Prop :=
  ∀ a b c : Word,
    ((aluAdd a b).toInt = (a.toInt + b.toInt + 2 ^ 31) % 2 ^ 32 - 2 ^ 31 ∧
      (aluSub a b).toInt = (a.toInt - b.toInt + 2 ^ 31) % 2 ^ 32 - 2 ^ 31 ∧
      (aluMul a b).toInt = (a.toInt * b.toInt + 2 ^ 31) % 2 ^ 32 - 2 ^ 31) ∧
    (aluAdd a b = aluAdd b a ∧ aluAdd (aluAdd a b) c = aluAdd a (aluAdd b c) ∧
      aluMul a b = aluMul b a ∧ aluMul (aluMul a b) c = aluMul a (aluMul b c) ∧
      aluSub a b = aluAdd a (aluSub 0#32 b)) ∧
    ((aluAdd a b).toNat = (a.toNat + b.toNat) % 2 ^ 32 ∧
      (aluMul a b).toNat = a.toNat * b.toNat % 2 ^ 32)

/-- The division law (44_alu.md): for a divisor that is not 0 the magnitude is the floor of the magnitudes' quotient and
the sign is that of the exact quotient, but for -2147483648 / -1, which is -2147483648. Rounding toward zero and the wrap
of that one pair are the spec's decisions D3 and D4 (log 5). -/
def Obligations.DivTruncatesTowardZero : Prop :=
  ∀ a b : Word, b.toInt ≠ 0 →
    (a.toInt = -2147483648 ∧ b.toInt = -1 → (aluDiv a b).toInt = -2147483648) ∧
    (¬(a.toInt = -2147483648 ∧ b.toInt = -1) →
      (aluDiv a b).toInt.natAbs = a.toInt.natAbs / b.toInt.natAbs ∧
      (0 ≤ a.toInt * b.toInt → 0 ≤ (aluDiv a b).toInt) ∧
      (a.toInt * b.toInt ≤ 0 → (aluDiv a b).toInt ≤ 0))

/-- R198. ArithmeticFault(0) is raised by DIV when there are at least two live entries and the top one is 0, and by no other
arithmetic event. -/
def Obligations.OnlyAZeroDivisorRaisesArithmeticFault : Prop :=
  (∀ (s : State) (a : Word) (rest : List Word), s.stack = 0#32 :: a :: rest →
    exec .div s = .next (s.faultedWith .arithmeticFault 0)) ∧
  (∀ (i : Instr) (s t : State), exec i s = .next t → s.faultKind ≠ some .arithmeticFault →
    t.faultKind = some .arithmeticFault → i = .div ∧ ∃ a rest, s.stack = 0#32 :: a :: rest)

/-- R180. PRINT: one byte; it appends the top to `out` as one OUT event, so the text grows by that word's line, pops it and
advances by 1; on an empty stack it raises ResourceUnderflow(0) and emits nothing. What a word's line looks like is stated
by PrintedTextIsTheShortestDecimal. -/
def Obligations.PrintEmitsTheTopAndPops : Prop :=
  ∀ s : State,
    encode s.cfg .print = [s.cfg.opc.print] ∧
    (∀ b rest, s.stack = b :: rest →
      exec .print s = .next { s with out := s.out ++ [b], stack := rest, ip := s.ip + 1 } ∧
      outEvents s { s with out := s.out ++ [b], stack := rest, ip := s.ip + 1 } = [b] ∧
      renderOut (s.out ++ [b]) = renderOut s.out ++ renderWord b) ∧
    (s.sp = 0 → exec .print s = .next (s.faultedWith .resourceUnderflow 0) ∧
      outEvents s (s.faultedWith .resourceUnderflow 0) = [])

/-- STOP (45_output_halt.md): one byte, always succeeds, `status <- HALTED`, and no step follows. That `ip` ends one past
the STOP byte is the spec's decision D19 (log 17). -/
def Obligations.StopHaltsOnePastItself : Prop :=
  ∀ s : State,
    encode s.cfg .stop = [s.cfg.opc.stop] ∧
    exec .stop s = .next { s with ip := s.ip + 1, status := .halted } ∧
    ∀ t, step { s with ip := s.ip + 1, status := .halted } ≠ .next t

/-! The frames: what an instruction leaves as it was. No instruction stores to the buffer, so every byte of it reads as
before. -/

/-- NOP, STOP and the jumps leave the stack, every register, `out` and every byte of the buffer; `status` and the record
too, but for STOP's HALTED and for a fatal condition, which changes nothing else. -/
def Obligations.FrameOfNopStopAndJumps : Prop :=
  ∀ (i : Instr) (s t : State),
    (i = .nop ∨ i = .stop ∨ ∃ a, i = .jmp a ∨ i = .jz a ∨ i = .jnz a) → exec i s = .next t →
    SameBuffer s t ∧ t.stack = s.stack ∧ t.registers = s.registers ∧ t.out = s.out ∧
    (SameControl s t ∨
      (i = .stop ∧ t.status = .halted ∧ t.faultKind = s.faultKind ∧ t.faultPc = s.faultPc ∧ t.faultInfo = s.faultInfo) ∨
      RaisedFrom s t)

/-- PUSH and LOAD put one word on the stack and leave every live entry below it, every register, `out`, `status`, the
record and every byte of the buffer; or they raise a fatal condition, which changes nothing else. -/
def Obligations.FrameOfPushAndLoad : Prop :=
  ∀ (i : Instr) (s t : State), (∃ v, i = .push v ∨ i = .load v) → exec i s = .next t →
    RaisedFrom s t ∨
    (SameBuffer s t ∧ SameControl s t ∧ t.registers = s.registers ∧ t.out = s.out ∧ t.sp = s.sp + 1 ∧
      ∀ k, k < s.sp → t.stackAt k = s.stackAt k)

/-- POP, STORE and PRINT take the top off the stack and leave the live entries below it, `status`, the record and every byte
of the buffer; STORE alone changes a register, the one it names; PRINT alone changes `out`; or they raise a fatal
condition, which changes nothing else. -/
def Obligations.FrameOfPopStoreAndPrint : Prop :=
  ∀ (i : Instr) (s t : State), (i = .pop ∨ i = .print ∨ ∃ r, i = .store r) → exec i s = .next t →
    RaisedFrom s t ∨
    (SameBuffer s t ∧ SameControl s t ∧ s.sp = t.sp + 1 ∧ (∀ k, k < t.sp → t.stackAt k = s.stackAt k) ∧
      t.registers.length = s.registers.length ∧
      (∀ k : Nat, i ≠ .store k → t.registers[k]? = s.registers[k]?) ∧
      (i ≠ .print → t.out = s.out))

/-- ADD, SUB, MUL and DIV write the second entry and pop one; they leave the entries below the second, every register,
`out`, `status`, the record and every byte of the buffer; or they raise a fatal condition, which changes nothing else. -/
def Obligations.FrameOfArithmetic : Prop :=
  ∀ (i : Instr) (s t : State), (i = .add ∨ i = .sub ∨ i = .mul ∨ i = .div) → exec i s = .next t →
    RaisedFrom s t ∨
    (SameBuffer s t ∧ SameControl s t ∧ t.registers = s.registers ∧ t.out = s.out ∧ 2 ≤ s.sp ∧ s.sp = t.sp + 1 ∧
      ∀ k, k + 1 < t.sp → t.stackAt k = s.stackAt k)

/-- Over every step: a register changes only when the instruction is a STORE that names it ("mutated only by STORE",
10_state.md). -/
def Obligations.OnlyStoreChangesARegister : Prop :=
  ∀ (s t : State) (j : Nat), step s = .next t → t.registers[j]? ≠ s.registers[j]? →
    ∃ next, s.decodeHere = .inst (.store j) next ∧ t.registers[j]? = s.stack.head?

/-- Over every step: `out` changes only by a PRINT, which appends the top word and nothing else (10_state.md, output
stream). -/
def Obligations.OnlyPrintChangesTheOutput : Prop :=
  ∀ s t : State, step s = .next t → t.out ≠ s.out →
    ∃ next b, s.decodeHere = .inst .print next ∧ s.stack.head? = some b ∧ t.out = s.out ++ [b]

/-- R64. No instruction writes the instruction space, and the host writes it only in IDLE: every state of a run has the
buffer it had at START. -/
def Obligations.InstructionSpaceIsReadOnlyDuringARun : Prop :=
  (∀ s t : State, step s = .next t → t.instructions = s.instructions) ∧
  (∀ (k : Nat) (s t : State), runLoop k s = .next t → t.instructions = s.instructions) ∧
  (∀ (e : HostEvent) (s : State), s.status ≠ .idle → e ≠ .reset → (hostEvent e s).instructions = s.instructions) ∧
  (∀ s : State, (hostEvent .start s).instructions = s.instructions)

/-! The step -/

/-- When RUNNING and the bytes at `ip` decode to an instruction, the step is `exec` of it at the same state; `next` is
`ip + 1 + w`, and the instruction is well-formed. -/
def Obligations.StepRunsTheDecodedInstruction : Prop :=
  ∀ (s : State) (i : Instr) (next : Nat), s.status = .running →
    decode s.cfg s.instructions s.ip = .inst i next →
    step s = exec i s ∧ next = s.ip + 1 + i.mnemonic.width s.cfg ∧ next ≤ s.cfg.maxInsts ∧ i.wellFormed s.cfg = true

/-- The fetch bound (40_execution_step.md): at `ip >= MAX_INSTS` the step raises InvalidAddress(ip). The kind and the
information are the spec's decision D11 (log 12). -/
def Obligations.FetchBeyondTheBufferIsInvalidAddress : Prop :=
  ∀ s : State, s.status = .running → s.cfg.maxInsts ≤ s.ip → step s = .next (s.faultedWith .invalidAddress s.ip)

/-- R112. The opcode byte is compared with the fourteen values of `OPC`: equal to none, the step raises InvalidOpcode(b);
otherwise its mnemonic is the unique one with that byte. -/
def Obligations.UnrecognisedOpcodeIsInvalidOpcode : Prop :=
  ∀ (s : State) (b : Byte), Memory.read s.instructions s.ip = b →
    (s.status = .running → s.ip < s.cfg.maxInsts → (∀ m, s.cfg.opc.byte m ≠ b) →
      step s = .next (s.faultedWith .invalidOpcode b.toNat)) ∧
    (s.cfg.legal = true → ∀ m, s.cfg.opc.byte m = b → s.opcodeAt s.ip = some m ∧ ∀ m', s.cfg.opc.byte m' = b → m' = m)

/-- The extent check (40_execution_step.md): an instruction whose immediate would cross the end of the buffer raises
InvalidAddress(pc0 + w), whatever the immediate bytes are. The kind and the information are the spec's decision D12
(log 12). -/
def Obligations.CutInstructionIsInvalidAddress : Prop :=
  ∀ (s : State) (m : Mnemonic), s.status = .running → s.ip < s.cfg.maxInsts → s.opcodeAt s.ip = some m →
    s.cfg.maxInsts < s.ip + 1 + m.width s.cfg →
    step s = .next (s.faultedWith .invalidAddress (s.ip + m.width s.cfg : Nat))

/-- R120. No step is taken in IDLE, HALTED or FAULTED, and the loop leaves such a state as it is. -/
def Obligations.NoStepOutsideRunning : Prop :=
  ∀ s : State, s.status ≠ .running → (∀ t, step s ≠ .next t) ∧ ∀ k, runLoop k s = .next s

/-- R202. Fatal conditions are precise: the faulting step has changed no stack entry, no register, no byte and no word of
`out`, and nothing runs after it; and in a run that ended FAULTED every step before the last committed and left the core
RUNNING, and the words emitted by then stay emitted. -/
def Obligations.FatalConditionsArePrecise : Prop :=
  (∀ s t : State, s.status = .running → step s = .next t → t.status = .faulted →
    SameBuffer s t ∧ t.stack = s.stack ∧ t.registers = s.registers ∧ t.out = s.out ∧
    (∀ u, step t ≠ .next u) ∧ ∀ k, runLoop k t = .next t) ∧
  (∀ (k : Nat) (s t : State), s.status = .running → runLoop k s = .next t → t.status = .faulted →
    ∃ (j : Nat) (u : State), j < k ∧ runLoop j s = .next u ∧ u.status = .running ∧ step u = .next t ∧ t.out = u.out ∧
      ∀ n v, n ≤ j → runLoop n s = .next v → v.status = .running)

/-- A fatal condition writes `status` and the record and leaves everything else, `ip` too (40_execution_step.md; `ip` by the
spec's decision D15, log 6), and `fault_pc` is the address of the opcode. -/
def Obligations.RaisingWritesOnlyStatusAndRecord : Prop :=
  ∀ s t : State, s.status = .running → step s = .next t → t.status = .faulted →
    ∃ k info, t = { s with status := .faulted, faultKind := some k, faultPc := s.ip, faultInfo := info } ∧
      k ≠ .programLoadFailure

/-- R190. Every RUNNING state has exactly one successor: a committed instruction, with the record as it was, or one of the
seven fatal conditions. -/
def Obligations.EveryRunningStateHasOneSuccessor : Prop :=
  ∀ s : State, s.status = .running →
    ∃ t, step s = .next t ∧ (∀ u, step s = .next u → u = t) ∧
      ((t.status ≠ .faulted ∧ (t.status = .running ∨ t.status = .halted) ∧
          t.faultKind = s.faultKind ∧ t.faultPc = s.faultPc ∧ t.faultInfo = s.faultInfo) ∨
        (t.status = .faulted ∧ ∃ k, t.faultKind = some k))

/-- The priority of fatal conditions (60_exceptions.md, section 3): the step raises exactly the first row of the table whose
condition holds, and commits when none does. The order of operand, depth and arithmetic checks is the spec's decision D13,
and that an untaken jump's target is checked all the same is D14 (log 13); the kind and the information of the fetch bound
and of the extent check are D11 and D12 (log 12). -/
def Obligations.StepRaisesTheFirstConditionOfTheTable : Prop :=
  ∀ s : State, s.status = .running →
    (∀ row, firstFatal s = some row → step s = .next (s.faultedWith row.kind row.info)) ∧
    (firstFatal s = none → ∃ t, step s = .next t ∧ t.status ≠ .faulted)

/-- `status` becomes HALTED exactly by a STOP: no other instruction ends a run cleanly. -/
def Obligations.OnlyStopHalts : Prop :=
  ∀ s t : State, s.status = .running → step s = .next t →
    (t.status = .halted ↔ ∃ next, s.decodeHere = .inst .stop next)

/-- Consequences of the parameter ranges (00_scope.md, section 3): a committed jump leaves `ip` below 32768, and a register
with an index of 128 or more never changes. -/
def Obligations.ImmediateRangesBoundTargetsAndRegisters : Prop :=
  ∀ s t : State, s.status = .running → step s = .next t →
    (t.status = .running → t.ip < 32768 ∨ ∃ i, s.decodeHere = .inst i t.ip) ∧
    (∀ j, 128 ≤ j → t.registers[j]? = s.registers[j]?)

/-! The invariant -/

/-- Every step keeps the invariant (10_state.md, section 1). -/
def Obligations.StepKeepsTheInvariant : Prop :=
  ∀ s t : State, s.Inv → step s = .next t → t.Inv

/-- Every event of the host keeps the invariant. -/
def Obligations.HostEventsKeepTheInvariant : Prop :=
  ∀ (e : HostEvent) (s : State), s.Inv → (hostEvent e s).Inv

/-- Every session from RESET, of any events and any turns of the loop in any order, is in a state that meets the invariant;
the loop never stops but by a refused second LOAD. -/
def Obligations.EverySessionFromResetMeetsTheInvariant : Prop :=
  ∀ (c : Config) (items : List SessionItem), c.legal = true →
    (∃ t, drive false items (State.resetOf c) = .next t ∧ t.Inv) ∨
    drive false items (State.resetOf c) = .refused .secondLoad

/-- The fault record of a step is the row of the cause table for its kind (60_exceptions.md, section 1). Codes and
information are the spec's decisions D11, D12, D16 (log 6, log 12). -/
def Obligations.FaultRecordFitsItsCause : Prop :=
  ∀ s t : State, s.Inv → s.status = .running → step s = .next t → t.status = .faulted →
    ∃ k, t.faultKind = some k ∧ t.RecordFits k

/-- The three causes of InvalidAddress can be told apart from the record (60_exceptions.md, section 1; D11, D12). -/
def Obligations.InvalidAddressCausesAreToldApart : Prop :=
  ∀ s t : State, s.status = .running → step s = .next t → t.status = .faulted →
    t.faultKind = some .invalidAddress →
    (s.decodeHere = .fetchOutOfRange ↔ s.cfg.maxInsts ≤ t.faultPc) ∧
    ((∃ m, s.decodeHere = .extentOutOfRange m) ↔ t.causeExtent) ∧
    ((∃ i next, s.decodeHere = .inst i next) ↔ (t.faultPc < s.cfg.maxInsts ∧ ¬t.causeExtent))

/-! The encoding -/

/-- Decode of encode: for every legal configuration and every well-formed instruction, wherever its bytes stand whole in the
buffer, the decoder gives it back with the address after it (30_encoding.md, section 5). -/
def Obligations.DecodeOfEncodeIsTheInstruction : Prop :=
  ∀ (c : Config) (buf : Memory) (pc0 : Nat) (i : Instr), c.legal = true → i.wellFormed c = true →
    pc0 + (encode c i).length ≤ c.maxInsts → BytesAt buf pc0 (encode c i) →
    decode c buf pc0 = .inst i (pc0 + (encode c i).length)

/-- Encode of decode: what the decoder accepts is well-formed, its bytes are the ones that stand there, and its length is
`1 + w`: each byte string has one meaning. -/
def Obligations.EncodeOfDecodeIsTheBytes : Prop :=
  ∀ (c : Config) (buf : Memory) (pc0 next : Nat) (i : Instr), decode c buf pc0 = .inst i next →
    i.wellFormed c = true ∧ BytesAt buf pc0 (encode c i) ∧
    (encode c i).length = 1 + i.mnemonic.width c ∧ next = pc0 + (encode c i).length ∧ next ≤ c.maxInsts

/-- R82. The immediate width of each mnemonic. -/
def Obligations.ImmediateWidthsAreFixedPerOpcode : Prop :=
  ∀ c : Config,
    Mnemonic.width c .nop = 0 ∧ Mnemonic.width c .push = 4 ∧ Mnemonic.width c .pop = 0 ∧
    Mnemonic.width c .load = 1 ∧ Mnemonic.width c .store = 1 ∧ Mnemonic.width c .jmp = 2 ∧
    Mnemonic.width c .jz = 2 ∧
    (c.jnzW = .two → Mnemonic.width c .jnz = 2) ∧ (c.jnzW = .one → Mnemonic.width c .jnz = 1) ∧
    Mnemonic.width c .add = 0 ∧ Mnemonic.width c .sub = 0 ∧ Mnemonic.width c .mul = 0 ∧
    Mnemonic.width c .div = 0 ∧ Mnemonic.width c .print = 0 ∧ Mnemonic.width c .stop = 0

/-- R83. The operand of a decoded instruction of immediate width `w` is the little-endian number of the `w` bytes after the
opcode, read as two's complement; of width 0 there is none. -/
def Obligations.ImmediatesAreLittleEndianTwosComplement : Prop :=
  ∀ (c : Config) (buf : Memory) (pc0 next : Nat) (i : Instr) (w u : Nat), decode c buf pc0 = .inst i next →
    w = i.mnemonic.width c →
    u = ((List.range w).map (fun k => (Memory.read buf (pc0 + 1 + k)).toNat * 256 ^ k)).sum →
    (w = 0 → i.operand = none) ∧
    (0 < w → ∃ v : Int, i.operand = some v ∧ v % 256 ^ w = u ∧ -(2 ^ (8 * w - 1) : Int) ≤ v ∧ v < 2 ^ (8 * w - 1))

/-- A negative register index or target faults (30_encoding.md, section 2): a LOAD or STORE whose immediate byte is 0x80 or
more raises InvalidRegister whatever NREGS is, and a JMP or JZ whose second immediate byte is 0x80 or more raises
InvalidAddress whatever MAX_INSTS is. Sign extension of every immediate is the spec's decision D9 (log 14). -/
def Obligations.NegativeIndexOrTargetFaults : Prop :=
  ∀ (s : State) (m : Mnemonic), s.status = .running → s.opcodeAt s.ip = some m →
    s.ip + 1 + m.width s.cfg ≤ s.cfg.maxInsts →
    (m = .load ∨ m = .store → 0x80 ≤ (Memory.read s.instructions (s.ip + 1)).toNat →
      step s = .next (s.faultedWith .invalidRegister ((Memory.read s.instructions (s.ip + 1)).toNat - 256))) ∧
    (m = .jmp ∨ m = .jz → 0x80 ≤ (Memory.read s.instructions (s.ip + 2)).toNat →
      step s = .next (s.faultedWith .invalidAddress
        ((Memory.read s.instructions (s.ip + 1)).toNat + 256 * (Memory.read s.instructions (s.ip + 2)).toNat - 65536)))

/-- Under the default `OPC` exactly the byte values 0x00 to 0x0D are opcodes; the other 242 are illegal (30_encoding.md,
section 3). The values are the spec's decision D5 (log 2). -/
def Obligations.DefaultOpcodesAreZeroToThirteen : Prop :=
  ∀ (buf : Memory) (pc0 : Nat), pc0 < 65536 →
    (0x0E ≤ (Memory.read buf pc0).toNat ↔
      decode Config.standard buf pc0 = .unknown (Memory.read buf pc0))

/-- Words written out from the encodings of 30_encoding.md and 95_test_vectors.md section 2 decode to their instruction, one
of each format and family. -/
def Obligations.WrittenWordsDecode : Prop :=
  decodeTableWord 8 0x00 = some .nop ∧
  decodeTableWord 40 0x0000012C01 = some (.push 300) ∧
  decodeTableWord 40 0x8000000001 = some (.push (-2147483648)) ∧
  decodeTableWord 40 0x1234567801 = some (.push 305419896) ∧
  decodeTableWord 16 0x8003 = some (.load (-128)) ∧
  decodeTableWord 16 0xFF04 = some (.store (-1)) ∧
  decodeTableWord 24 0x7FFF05 = some (.jmp 32767) ∧
  decodeTableWord 24 0x123406 = some (.jz 4660) ∧
  decodeTableWord 24 0x001007 = some (.jnz 16) ∧
  decodeTableWord 8 0x0B = some .div ∧
  decodeTableWord 8 0x0C = some .print ∧
  decodeTableWord 8 0x0D = some .stop ∧
  decodeTableWord 8 0x0E = none

/-! The host's events -/

/-- START (70_reset_and_hazards.md, section 1): from IDLE it sets `ip` and `sp` to 0 and `status` to RUNNING and touches
nothing else, so the first step decodes at address 0; in any other status it has no effect (the spec's decision D22;
log 16). -/
def Obligations.StartBeginsARunAtAddressZero : Prop :=
  ∀ s : State,
    (s.status = .idle →
      hostEvent .start s = { s with ip := 0, stack := [], status := .running } ∧
      (hostEvent .start s).sp = 0 ∧ (hostEvent .start s).decodeHere = decode s.cfg s.instructions 0) ∧
    (s.status ≠ .idle → hostEvent .start s = s)

/-- LOAD (70_reset_and_hazards.md, section 2): in IDLE a program that fits is installed byte for byte from address 0, every
byte beyond it keeps its value, and nothing else changes. An empty program is legal (the spec's decision D36; log 16). -/
def Obligations.LoadInstallsTheBytesExactly : Prop :=
  ∀ (s : State) (prog : List Byte), s.Inv → s.status = .idle → prog.length ≤ s.cfg.maxInsts →
    (∀ k b, prog[k]? = some b → Memory.read (hostEvent (.load prog) s).instructions k = b) ∧
    (∀ a, prog.length ≤ a →
      Memory.read (hostEvent (.load prog) s).instructions a = Memory.read s.instructions a) ∧
    { hostEvent (.load prog) s with instructions := s.instructions } = s

/-- LOAD_FAIL, and a LOAD longer than the buffer (70_reset_and_hazards.md, section 2; the spec's decisions D21, D35;
log 16): in IDLE they record ProgramLoadFailure, install nothing, and no step is ever taken. -/
def Obligations.FailedLoadIsProgramLoadFailure : Prop :=
  ∀ (s : State) (e : HostEvent), s.status = .idle →
    (e = .loadFail ∨ ∃ prog, e = .load prog ∧ s.cfg.maxInsts < prog.length) →
    hostEvent e s = { s with status := .faulted, faultKind := some .programLoadFailure, faultPc := 0, faultInfo := 0 } ∧
    (hostEvent e s).readStatus = { status := 3, faultKind := 6, faultPc := 0, faultInfo := 0 } ∧
    ∀ t, step (hostEvent e s) ≠ .next t

/-- Outside IDLE every event but RESET is ignored, and RESET in any status gives the state after RESET
(70_reset_and_hazards.md; the spec's decision D22; log 16). -/
def Obligations.OnlyResetActsOutsideIdle : Prop :=
  ∀ (s : State) (e : HostEvent),
    (e ≠ .reset → s.status ≠ .idle → hostEvent e s = s) ∧ hostEvent .reset s = State.resetOf s.cfg

/-- A second LOAD that IDLE would accept is refused, whatever the two programs are (70_reset_and_hazards.md, section 2; the
spec's decision D37; log 9); after a RESET a LOAD is accepted again. -/
def Obligations.SecondLoadBeforeStartIsRefused : Prop :=
  ∀ (c : Config) (p q : List Byte), p.length ≤ c.maxInsts →
    drive false [.event (.load p), .event (.load q)] (State.resetOf c) = .refused .secondLoad ∧
    ∃ t, drive false [.event (.load p), .event .reset, .event (.load q)] (State.resetOf c) = .next t

/-- What the host reads of a run that has ended (10_state.md, section 4; 60_exceptions.md, section 6): nothing but STATUS
before the end; zero exit exactly for HALTED (the spec's decisions D24, D34; log 19). -/
def Obligations.HostReadsTheFinalStateOnlyAfterTheEnd : Prop :=
  ∀ s : State,
    (s.status = .running ∨ s.status = .idle → s.runResult = none ∧ s.exitIsZero = none) ∧
    (s.status = .halted ∨ s.status = .faulted →
      (∃ r, s.runResult = some r ∧ r.status = s.readStatus ∧ r.out = s.out ∧ r.registers = s.registers ∧
        r.sp = s.sp ∧ r.ip = s.ip ∧ ∀ i, r.stack[i]? = s.stackAt i) ∧
      (s.exitIsZero = some true ↔ s.status = .halted) ∧ (s.exitIsZero = some false ↔ s.status = .faulted))

/-! Whole runs -/

/-- R11. The same program against a freshly reset core of the same configuration gives the same states and output after any
number of turns, whatever the core did before. -/
def Obligations.FreshRunsOfAProgramAreIdentical : Prop :=
  ∀ (s t : State) (prog : List Byte) (k : Nat), s.cfg = t.cfg →
    runLoop k (launch prog s) = runLoop k (launch prog t)

/-- A run that has ended stays as it ended, and at any number of turns up to then it had not failed
(40_execution_step.md, section 4; 70_reset_and_hazards.md, section 5). -/
def Obligations.EndedRunsStayEnded : Prop :=
  ∀ (k j : Nat) (s t : State), runLoop k s = .next t → t.ended = true → k ≤ j → runLoop j s = .next t

/-- Output is append-only: the words emitted so far stay emitted, whatever follows (10_state.md, output stream). -/
def Obligations.OutputOnlyGrows : Prop :=
  ∀ (k : Nat) (s t : State), runLoop k s = .next t → s.out <+: t.out

/-- A program that falls off its own end (20_memory.md, section 5): with NOP encoded as 0x00, from zero bytes up to the end
of the buffer the run executes NOPs and then raises InvalidAddress(MAX_INSTS), with nothing else changed. The zero bytes
beyond the program and the kind of the fetch fault are the spec's decisions D20 and D11 (log 11, log 12). -/
def Obligations.FallingOffTheProgramEndsInInvalidAddress : Prop :=
  ∀ (n : Nat) (s : State), s.status = .running → s.cfg.legal = true → s.cfg.opc.nop = 0x00#8 →
    s.ip + n = s.cfg.maxInsts → (∀ a, s.ip ≤ a → Memory.read s.instructions a = 0x00#8) →
    runLoop (n + 1) s =
      .next { s with ip := s.cfg.maxInsts, status := .faulted, faultKind := some .invalidAddress,
                     faultPc := s.cfg.maxInsts, faultInfo := s.cfg.maxInsts }

/-- A jump to itself runs for ever and is no error (70_reset_and_hazards.md, section 5): after any number of turns the core
is in the same RUNNING state. -/
def Obligations.JumpToItselfNeverEnds : Prop :=
  ∀ (k : Nat) (s : State), s.status = .running → s.cfg.legal = true → s.ip < 32768 → s.ip + 3 ≤ s.cfg.maxInsts →
    BytesAt s.instructions s.ip (encode s.cfg (.jmp s.ip)) → runLoop k s = .next s

/-- "PUSH then immediately POP leaves stack pointer unchanged and register contents unchanged (round-trip)"
(95_test_vectors.md S6). -/
def Obligations.PushThenPopRestoresTheStack : Prop :=
  ∀ (n : Int) (s : State), s.sp < s.cfg.stackSize →
    ∃ t u, exec (.push n) s = .next t ∧ exec .pop t = .next u ∧ u = { s with ip := s.ip + 6 }

/-- "STORE r then LOAD r (same r) yields the previously stored value on top of stack" (95_test_vectors.md S7). -/
def Obligations.StoreThenLoadYieldsTheStoredValue : Prop :=
  ∀ (i : Nat) (b : Word) (rest : List Word) (s : State), s.Inv → i < s.cfg.nregs → s.stack = b :: rest →
    ∃ t u, exec (.store i) s = .next t ∧ exec (.load i) t = .next u ∧ u.stack = s.stack ∧
      u.registers[i]? = some b ∧ u.ip = s.ip + 4

/-- The text of a printed word (45_output_halt.md; the spec's decision D23; log 18): `-` exactly for a negative word, then
the decimal digits of its magnitude, the most significant first and no leading zero, then the line terminator. -/
def Obligations.PrintedTextIsTheShortestDecimal : Prop :=
  ∀ v : Word, ∃ ds : List Nat,
    renderWord v = (if v.toInt < 0 then ['-'] else []) ++ ds.map (fun d => Char.ofNat (48 + d)) ++ [Char.ofNat 0x0A] ∧
    ds ≠ [] ∧ (∀ d ∈ ds, d < 10) ∧ (ds.head? = some 0 → ds = [0]) ∧
    ds.foldl (fun n d => 10 * n + d) 0 = v.toInt.natAbs
end

