-- ==== Sys2Proof/Laws/Alu.lean ====
section
/-! SUPPORT. The ALU's operations on integers are the bit vectors' own. -/

namespace Sys2Proof.Machine

theorem aluAdd_eq (a b : Word) : aluAdd a b = a + b := by
  apply BitVec.eq_of_toInt_eq
  rw [aluAdd, wrap32, BitVec.toInt_ofInt, BitVec.toInt_add]

theorem aluSub_eq (a b : Word) : aluSub a b = a - b := by
  apply BitVec.eq_of_toInt_eq
  rw [aluSub, wrap32, BitVec.toInt_ofInt, BitVec.toInt_sub]

theorem aluMul_eq (a b : Word) : aluMul a b = a * b := by
  apply BitVec.eq_of_toInt_eq
  rw [aluMul, wrap32, BitVec.toInt_ofInt, BitVec.toInt_mul]

end Sys2Proof.Machine
end

