-- ==== Sys2Proof/Laws/State.lean ====
section
/-! SUPPORT. One lemma per field per update of the state, each true by `rfl`, so that no later proof unfolds a record
update. -/

namespace Sys2Proof.Machine.State

@[simp] theorem push_cfg (v : Word) (s : State) : (s.push v).cfg = s.cfg := rfl
@[simp] theorem push_instructions (v : Word) (s : State) : (s.push v).instructions = s.instructions := rfl
@[simp] theorem push_stack (v : Word) (s : State) : (s.push v).stack = v :: s.stack := rfl
@[simp] theorem push_registers (v : Word) (s : State) : (s.push v).registers = s.registers := rfl
@[simp] theorem push_ip (v : Word) (s : State) : (s.push v).ip = s.ip := rfl
@[simp] theorem push_status (v : Word) (s : State) : (s.push v).status = s.status := rfl
@[simp] theorem push_faultKind (v : Word) (s : State) : (s.push v).faultKind = s.faultKind := rfl
@[simp] theorem push_faultPc (v : Word) (s : State) : (s.push v).faultPc = s.faultPc := rfl
@[simp] theorem push_faultInfo (v : Word) (s : State) : (s.push v).faultInfo = s.faultInfo := rfl
@[simp] theorem push_out (v : Word) (s : State) : (s.push v).out = s.out := rfl

@[simp] theorem pop_cfg (s : State) : s.pop.cfg = s.cfg := rfl
@[simp] theorem pop_instructions (s : State) : s.pop.instructions = s.instructions := rfl
@[simp] theorem pop_stack (s : State) : s.pop.stack = s.stack.tail := rfl
@[simp] theorem pop_registers (s : State) : s.pop.registers = s.registers := rfl
@[simp] theorem pop_ip (s : State) : s.pop.ip = s.ip := rfl
@[simp] theorem pop_status (s : State) : s.pop.status = s.status := rfl
@[simp] theorem pop_faultKind (s : State) : s.pop.faultKind = s.faultKind := rfl
@[simp] theorem pop_faultPc (s : State) : s.pop.faultPc = s.faultPc := rfl
@[simp] theorem pop_faultInfo (s : State) : s.pop.faultInfo = s.faultInfo := rfl
@[simp] theorem pop_out (s : State) : s.pop.out = s.out := rfl

@[simp] theorem setSecond_cfg (v : Word) (s : State) : (s.setSecond v).cfg = s.cfg := rfl
@[simp] theorem setSecond_instructions (v : Word) (s : State) : (s.setSecond v).instructions = s.instructions := rfl
@[simp] theorem setSecond_stack (v : Word) (s : State) : (s.setSecond v).stack = s.stack.set 1 v := rfl
@[simp] theorem setSecond_registers (v : Word) (s : State) : (s.setSecond v).registers = s.registers := rfl
@[simp] theorem setSecond_ip (v : Word) (s : State) : (s.setSecond v).ip = s.ip := rfl
@[simp] theorem setSecond_status (v : Word) (s : State) : (s.setSecond v).status = s.status := rfl
@[simp] theorem setSecond_faultKind (v : Word) (s : State) : (s.setSecond v).faultKind = s.faultKind := rfl
@[simp] theorem setSecond_faultPc (v : Word) (s : State) : (s.setSecond v).faultPc = s.faultPc := rfl
@[simp] theorem setSecond_faultInfo (v : Word) (s : State) : (s.setSecond v).faultInfo = s.faultInfo := rfl
@[simp] theorem setSecond_out (v : Word) (s : State) : (s.setSecond v).out = s.out := rfl

@[simp] theorem writeReg_cfg (i : Nat) (v : Word) (s : State) : (s.writeReg i v).cfg = s.cfg := rfl
@[simp] theorem writeReg_instructions (i : Nat) (v : Word) (s : State) : (s.writeReg i v).instructions = s.instructions := rfl
@[simp] theorem writeReg_stack (i : Nat) (v : Word) (s : State) : (s.writeReg i v).stack = s.stack := rfl
@[simp] theorem writeReg_registers (i : Nat) (v : Word) (s : State) : (s.writeReg i v).registers = s.registers.set i v := rfl
@[simp] theorem writeReg_ip (i : Nat) (v : Word) (s : State) : (s.writeReg i v).ip = s.ip := rfl
@[simp] theorem writeReg_status (i : Nat) (v : Word) (s : State) : (s.writeReg i v).status = s.status := rfl
@[simp] theorem writeReg_faultKind (i : Nat) (v : Word) (s : State) : (s.writeReg i v).faultKind = s.faultKind := rfl
@[simp] theorem writeReg_faultPc (i : Nat) (v : Word) (s : State) : (s.writeReg i v).faultPc = s.faultPc := rfl
@[simp] theorem writeReg_faultInfo (i : Nat) (v : Word) (s : State) : (s.writeReg i v).faultInfo = s.faultInfo := rfl
@[simp] theorem writeReg_out (i : Nat) (v : Word) (s : State) : (s.writeReg i v).out = s.out := rfl

@[simp] theorem emit_cfg (v : Word) (s : State) : (s.emit v).cfg = s.cfg := rfl
@[simp] theorem emit_instructions (v : Word) (s : State) : (s.emit v).instructions = s.instructions := rfl
@[simp] theorem emit_stack (v : Word) (s : State) : (s.emit v).stack = s.stack := rfl
@[simp] theorem emit_registers (v : Word) (s : State) : (s.emit v).registers = s.registers := rfl
@[simp] theorem emit_ip (v : Word) (s : State) : (s.emit v).ip = s.ip := rfl
@[simp] theorem emit_status (v : Word) (s : State) : (s.emit v).status = s.status := rfl
@[simp] theorem emit_faultKind (v : Word) (s : State) : (s.emit v).faultKind = s.faultKind := rfl
@[simp] theorem emit_faultPc (v : Word) (s : State) : (s.emit v).faultPc = s.faultPc := rfl
@[simp] theorem emit_faultInfo (v : Word) (s : State) : (s.emit v).faultInfo = s.faultInfo := rfl
@[simp] theorem emit_out (v : Word) (s : State) : (s.emit v).out = s.out ++ [v] := rfl

@[simp] theorem setIp_cfg (t : Nat) (s : State) : (s.setIp t).cfg = s.cfg := rfl
@[simp] theorem setIp_instructions (t : Nat) (s : State) : (s.setIp t).instructions = s.instructions := rfl
@[simp] theorem setIp_stack (t : Nat) (s : State) : (s.setIp t).stack = s.stack := rfl
@[simp] theorem setIp_registers (t : Nat) (s : State) : (s.setIp t).registers = s.registers := rfl
@[simp] theorem setIp_ip (t : Nat) (s : State) : (s.setIp t).ip = t := rfl
@[simp] theorem setIp_status (t : Nat) (s : State) : (s.setIp t).status = s.status := rfl
@[simp] theorem setIp_faultKind (t : Nat) (s : State) : (s.setIp t).faultKind = s.faultKind := rfl
@[simp] theorem setIp_faultPc (t : Nat) (s : State) : (s.setIp t).faultPc = s.faultPc := rfl
@[simp] theorem setIp_faultInfo (t : Nat) (s : State) : (s.setIp t).faultInfo = s.faultInfo := rfl
@[simp] theorem setIp_out (t : Nat) (s : State) : (s.setIp t).out = s.out := rfl

@[simp] theorem advance_cfg (m : Mnemonic) (s : State) : (s.advance m).cfg = s.cfg := rfl
@[simp] theorem advance_instructions (m : Mnemonic) (s : State) : (s.advance m).instructions = s.instructions := rfl
@[simp] theorem advance_stack (m : Mnemonic) (s : State) : (s.advance m).stack = s.stack := rfl
@[simp] theorem advance_registers (m : Mnemonic) (s : State) : (s.advance m).registers = s.registers := rfl
@[simp] theorem advance_ip (m : Mnemonic) (s : State) : (s.advance m).ip = s.ip + m.len s.cfg := rfl
@[simp] theorem advance_status (m : Mnemonic) (s : State) : (s.advance m).status = s.status := rfl
@[simp] theorem advance_faultKind (m : Mnemonic) (s : State) : (s.advance m).faultKind = s.faultKind := rfl
@[simp] theorem advance_faultPc (m : Mnemonic) (s : State) : (s.advance m).faultPc = s.faultPc := rfl
@[simp] theorem advance_faultInfo (m : Mnemonic) (s : State) : (s.advance m).faultInfo = s.faultInfo := rfl
@[simp] theorem advance_out (m : Mnemonic) (s : State) : (s.advance m).out = s.out := rfl

@[simp] theorem halt_cfg (s : State) : s.halt.cfg = s.cfg := rfl
@[simp] theorem halt_instructions (s : State) : s.halt.instructions = s.instructions := rfl
@[simp] theorem halt_stack (s : State) : s.halt.stack = s.stack := rfl
@[simp] theorem halt_registers (s : State) : s.halt.registers = s.registers := rfl
@[simp] theorem halt_ip (s : State) : s.halt.ip = s.ip := rfl
@[simp] theorem halt_status (s : State) : s.halt.status = .halted := rfl
@[simp] theorem halt_faultKind (s : State) : s.halt.faultKind = s.faultKind := rfl
@[simp] theorem halt_faultPc (s : State) : s.halt.faultPc = s.faultPc := rfl
@[simp] theorem halt_faultInfo (s : State) : s.halt.faultInfo = s.faultInfo := rfl
@[simp] theorem halt_out (s : State) : s.halt.out = s.out := rfl

@[simp] theorem faultedWith_cfg (k : FatalKind) (info : Int) (s : State) : (s.faultedWith k info).cfg = s.cfg := rfl
@[simp] theorem faultedWith_instructions (k : FatalKind) (info : Int) (s : State) : (s.faultedWith k info).instructions = s.instructions := rfl
@[simp] theorem faultedWith_stack (k : FatalKind) (info : Int) (s : State) : (s.faultedWith k info).stack = s.stack := rfl
@[simp] theorem faultedWith_registers (k : FatalKind) (info : Int) (s : State) : (s.faultedWith k info).registers = s.registers := rfl
@[simp] theorem faultedWith_ip (k : FatalKind) (info : Int) (s : State) : (s.faultedWith k info).ip = s.ip := rfl
@[simp] theorem faultedWith_status (k : FatalKind) (info : Int) (s : State) : (s.faultedWith k info).status = .faulted := rfl
@[simp] theorem faultedWith_faultKind (k : FatalKind) (info : Int) (s : State) : (s.faultedWith k info).faultKind = some k := rfl
@[simp] theorem faultedWith_faultPc (k : FatalKind) (info : Int) (s : State) : (s.faultedWith k info).faultPc = s.ip := rfl
@[simp] theorem faultedWith_faultInfo (k : FatalKind) (info : Int) (s : State) : (s.faultedWith k info).faultInfo = info := rfl
@[simp] theorem faultedWith_out (k : FatalKind) (info : Int) (s : State) : (s.faultedWith k info).out = s.out := rfl

@[simp] theorem loadFailed_cfg (s : State) : s.loadFailed.cfg = s.cfg := rfl
@[simp] theorem loadFailed_instructions (s : State) : s.loadFailed.instructions = s.instructions := rfl
@[simp] theorem loadFailed_stack (s : State) : s.loadFailed.stack = s.stack := rfl
@[simp] theorem loadFailed_registers (s : State) : s.loadFailed.registers = s.registers := rfl
@[simp] theorem loadFailed_ip (s : State) : s.loadFailed.ip = s.ip := rfl
@[simp] theorem loadFailed_status (s : State) : s.loadFailed.status = .faulted := rfl
@[simp] theorem loadFailed_faultKind (s : State) : s.loadFailed.faultKind = some .programLoadFailure := rfl
@[simp] theorem loadFailed_faultPc (s : State) : s.loadFailed.faultPc = 0 := rfl
@[simp] theorem loadFailed_faultInfo (s : State) : s.loadFailed.faultInfo = 0 := rfl
@[simp] theorem loadFailed_out (s : State) : s.loadFailed.out = s.out := rfl

@[simp] theorem started_cfg (s : State) : s.started.cfg = s.cfg := rfl
@[simp] theorem started_instructions (s : State) : s.started.instructions = s.instructions := rfl
@[simp] theorem started_stack (s : State) : s.started.stack = [] := rfl
@[simp] theorem started_registers (s : State) : s.started.registers = s.registers := rfl
@[simp] theorem started_ip (s : State) : s.started.ip = 0 := rfl
@[simp] theorem started_status (s : State) : s.started.status = .running := rfl
@[simp] theorem started_faultKind (s : State) : s.started.faultKind = s.faultKind := rfl
@[simp] theorem started_faultPc (s : State) : s.started.faultPc = s.faultPc := rfl
@[simp] theorem started_faultInfo (s : State) : s.started.faultInfo = s.faultInfo := rfl
@[simp] theorem started_out (s : State) : s.started.out = s.out := rfl

@[simp] theorem resetOf_cfg (c : Config) : (resetOf c).cfg = c := rfl
@[simp] theorem resetOf_instructions (c : Config) : (resetOf c).instructions = [] := rfl
@[simp] theorem resetOf_stack (c : Config) : (resetOf c).stack = [] := rfl
@[simp] theorem resetOf_registers (c : Config) : (resetOf c).registers = List.replicate c.nregs 0#32 := rfl
@[simp] theorem resetOf_ip (c : Config) : (resetOf c).ip = 0 := rfl
@[simp] theorem resetOf_status (c : Config) : (resetOf c).status = .idle := rfl
@[simp] theorem resetOf_faultKind (c : Config) : (resetOf c).faultKind = none := rfl
@[simp] theorem resetOf_faultPc (c : Config) : (resetOf c).faultPc = 0 := rfl
@[simp] theorem resetOf_faultInfo (c : Config) : (resetOf c).faultInfo = 0 := rfl
@[simp] theorem resetOf_out (c : Config) : (resetOf c).out = [] := rfl

theorem sp_eq (s : State) : s.sp = s.stack.length := rfl

@[simp] theorem resetOf_sp (c : Config) : (resetOf c).sp = 0 := rfl
@[simp] theorem push_sp (v : Word) (s : State) : (s.push v).sp = s.sp + 1 := rfl
@[simp] theorem pop_sp (s : State) : s.pop.sp = s.sp - 1 := by simp [sp_eq]
@[simp] theorem setSecond_sp (v : Word) (s : State) : (s.setSecond v).sp = s.sp := by simp [sp_eq]
@[simp] theorem writeReg_sp (i : Nat) (v : Word) (s : State) : (s.writeReg i v).sp = s.sp := rfl
@[simp] theorem emit_sp (v : Word) (s : State) : (s.emit v).sp = s.sp := rfl
@[simp] theorem setIp_sp (t : Nat) (s : State) : (s.setIp t).sp = s.sp := rfl
@[simp] theorem advance_sp (m : Mnemonic) (s : State) : (s.advance m).sp = s.sp := rfl
@[simp] theorem halt_sp (s : State) : s.halt.sp = s.sp := rfl
@[simp] theorem faultedWith_sp (k : FatalKind) (info : Int) (s : State) : (s.faultedWith k info).sp = s.sp := rfl
@[simp] theorem loadFailed_sp (s : State) : s.loadFailed.sp = s.sp := rfl
@[simp] theorem started_sp (s : State) : s.started.sp = 0 := rfl

end Sys2Proof.Machine.State
end

