-- ==== Sys2Proof/Laws/Checks.lean ====
section
/-! SUPPORT. For each check of an instruction: what it answers when it passes and when it fails, and, once for all, what is
known when it answers a next state. -/

namespace Sys2Proof.Machine

variable {s t : State}

@[simp] theorem raise_eq (k : FatalKind) (info : Int) (s : State) : raise k info s = .next (s.faultedWith k info) := rfl

theorem needRegister_pass {r : Int} (k : Nat → Result) (h : 0 ≤ r ∧ r < s.cfg.nregs) :
    needRegister r s k = k r.toNat := if_pos h

theorem needRegister_fail {r : Int} (k : Nat → Result) (h : ¬(0 ≤ r ∧ r < s.cfg.nregs)) :
    needRegister r s k = .next (s.faultedWith .invalidRegister r) := if_neg h

theorem needRegister_next {r : Int} {k : Nat → Result} (h : needRegister r s k = .next t) :
    (∃ i : Nat, r = i ∧ i < s.cfg.nregs ∧ k i = .next t) ∨
    (¬(0 ≤ r ∧ r < s.cfg.nregs) ∧ t = s.faultedWith .invalidRegister r) := by
  by_cases hr : 0 ≤ r ∧ r < s.cfg.nregs
  · rw [needRegister_pass k hr] at h
    exact .inl ⟨r.toNat, by omega, by omega, h⟩
  · rw [needRegister_fail k hr] at h
    exact .inr ⟨hr, (Host.Outcome.next.inj h).symm⟩

theorem needTarget_pass {a : Int} (k : Nat → Result) (h : 0 ≤ a ∧ a < s.cfg.maxInsts) :
    needTarget a s k = k a.toNat := if_pos h

theorem needTarget_fail {a : Int} (k : Nat → Result) (h : ¬(0 ≤ a ∧ a < s.cfg.maxInsts)) :
    needTarget a s k = .next (s.faultedWith .invalidAddress a) := if_neg h

theorem needTarget_next {a : Int} {k : Nat → Result} (h : needTarget a s k = .next t) :
    (∃ i : Nat, a = i ∧ i < s.cfg.maxInsts ∧ k i = .next t) ∨
    (¬(0 ≤ a ∧ a < s.cfg.maxInsts) ∧ t = s.faultedWith .invalidAddress a) := by
  by_cases ha : 0 ≤ a ∧ a < s.cfg.maxInsts
  · rw [needTarget_pass k ha] at h
    exact .inl ⟨a.toNat, by omega, by omega, h⟩
  · rw [needTarget_fail k ha] at h
    exact .inr ⟨ha, (Host.Outcome.next.inj h).symm⟩

theorem needRoom_pass (k : Result) (h : s.sp < s.cfg.stackSize) : needRoom s k = k := if_pos h

theorem needRoom_fail (k : Result) (h : ¬s.sp < s.cfg.stackSize) :
    needRoom s k = .next (s.faultedWith .resourceExhausted 0) := if_neg h

theorem needRoom_next {k : Result} (h : needRoom s k = .next t) :
    (s.sp < s.cfg.stackSize ∧ k = .next t) ∨
    (¬s.sp < s.cfg.stackSize ∧ t = s.faultedWith .resourceExhausted 0) := by
  by_cases hs : s.sp < s.cfg.stackSize
  · exact .inl ⟨hs, by rwa [needRoom_pass k hs] at h⟩
  · rw [needRoom_fail k hs] at h
    exact .inr ⟨hs, (Host.Outcome.next.inj h).symm⟩

theorem needTop_pass {b : Word} {rest : List Word} (k : Word → Result) (h : s.stack = b :: rest) :
    needTop s k = k b := by simp [needTop, State.top, h]

theorem needTop_fail (k : Word → Result) (h : s.stack = []) :
    needTop s k = .next (s.faultedWith .resourceUnderflow 0) := by simp [needTop, State.top, h]

theorem needTop_next {k : Word → Result} (h : needTop s k = .next t) :
    (∃ b rest, s.stack = b :: rest ∧ k b = .next t) ∨
    (s.stack = [] ∧ t = s.faultedWith .resourceUnderflow 0) := by
  cases hs : s.stack with
  | nil =>
    rw [needTop_fail k hs] at h
    exact .inr ⟨rfl, (Host.Outcome.next.inj h).symm⟩
  | cons b rest => exact .inl ⟨b, rest, rfl, by rwa [needTop_pass k hs] at h⟩

theorem needTwo_pass {a b : Word} {rest : List Word} (k : Word → Word → Result) (h : s.stack = b :: a :: rest) :
    needTwo s k = k a b := by simp [needTwo, State.second, State.top, h]

theorem needTwo_fail (k : Word → Word → Result) (h : s.sp < 2) :
    needTwo s k = .next (s.faultedWith .resourceUnderflow 0) := by
  rw [State.sp_eq] at h
  match hs : s.stack with
  | [] => simp [needTwo, State.second, State.top, hs]
  | [_] => simp [needTwo, State.second, State.top, hs]
  | _ :: _ :: _ => rw [hs, List.length_cons, List.length_cons] at h; omega

theorem needTwo_next {k : Word → Word → Result} (h : needTwo s k = .next t) :
    (∃ a b rest, s.stack = b :: a :: rest ∧ k a b = .next t) ∨
    (s.sp < 2 ∧ t = s.faultedWith .resourceUnderflow 0) := by
  by_cases hs : s.sp < 2
  · rw [needTwo_fail k hs] at h
    exact .inr ⟨hs, (Host.Outcome.next.inj h).symm⟩
  · match hst : s.stack with
    | [] => simp [State.sp_eq, hst] at hs
    | [_] => simp [State.sp_eq, hst] at hs
    | b :: a :: rest => exact .inl ⟨a, b, rest, rfl, by rwa [needTwo_pass k hst] at h⟩

theorem needNonzero_pass {b : Word} (k : Result) (h : b ≠ 0#32) : needNonzero b s k = k := if_neg h

theorem needNonzero_fail {b : Word} (k : Result) (h : b = 0#32) :
    needNonzero b s k = .next (s.faultedWith .arithmeticFault 0) := if_pos h

theorem needNonzero_next {b : Word} {k : Result} (h : needNonzero b s k = .next t) :
    (b ≠ 0#32 ∧ k = .next t) ∨ (b = 0#32 ∧ t = s.faultedWith .arithmeticFault 0) := by
  by_cases hb : b = 0#32
  · rw [needNonzero_fail k hb] at h
    exact .inr ⟨hb, (Host.Outcome.next.inj h).symm⟩
  · exact .inl ⟨hb, by rwa [needNonzero_pass k hb] at h⟩

end Sys2Proof.Machine
end

