-- ==== Sys2Proof/Laws/Decode.lean ====
section
/-! SUPPORT. The decoder's parts: the opcode map and its inverse, the immediate, and what each answer of `decode` says. -/

namespace Sys2Proof

theorem Mnemonic.mem_all (m : Mnemonic) : m ∈ Mnemonic.all := by cases m <;> decide

/-- `OPC^-1` answers a mnemonic whose byte it was. -/
theorem OpcodeMap.byte_of_mnemonicOf {o : OpcodeMap} {b : Byte} {m : Mnemonic} (h : o.mnemonicOf b = some m) :
    o.byte m = b := by
  simpa using List.find?_some h

/-- `OPC^-1` answers none exactly outside the image of `OPC`. -/
theorem OpcodeMap.mnemonicOf_none {o : OpcodeMap} {b : Byte} : o.mnemonicOf b = none ↔ ∀ m, o.byte m ≠ b := by
  simp [OpcodeMap.mnemonicOf, List.find?_eq_none, Mnemonic.mem_all]

theorem Config.legal_iff {c : Config} :
    c.legal = true ↔ ((1 ≤ c.maxInsts ∧ 1 ≤ c.stackSize) ∧ 1 ≤ c.nregs) ∧ (Mnemonic.all.map c.opc.byte).Nodup := by
  simp only [Config.legal, Bool.and_eq_true, decide_eq_true_eq]

theorem Config.byte_injective {c : Config} (h : c.legal = true) {m m' : Mnemonic} (hb : c.opc.byte m = c.opc.byte m') :
    m = m' :=
  List.inj_on_of_nodup_map (Config.legal_iff.mp h).2 (Mnemonic.mem_all m) (Mnemonic.mem_all m') hb

/-- On a legal configuration `OPC^-1` inverts `OPC`. -/
theorem Config.mnemonicOf_byte {c : Config} (h : c.legal = true) (m : Mnemonic) :
    c.opc.mnemonicOf (c.opc.byte m) = some m := by
  cases hm : c.opc.mnemonicOf (c.opc.byte m) with
  | none => exact absurd rfl (OpcodeMap.mnemonicOf_none.mp hm m)
  | some m' => rw [Config.byte_injective h (OpcodeMap.byte_of_mnemonicOf hm)]

@[simp] theorem Instr.build_mnemonic (m : Mnemonic) (imm : Int) : (Instr.build m imm).mnemonic = m := by cases m <;> rfl

/-- The widths of one format, as bytes of an access and as a number, agree. -/
theorem Format.access_bytes (f : Format) : (∀ w, f.access = some w → w.bytes = f.width) ∧ (f.access = none ↔ f.width = 0) := by
  cases f <;> simp [Format.access, Format.width, AccessWidth.bytes]

theorem Memory.readLE_lt (m : Memory) (a n : Nat) : m.readLE a n < 256 ^ n := by
  induction n generalizing a with
  | zero => simp [Memory.readLE]
  | succ n ih =>
    have h1 := ih (a + 1)
    have h2 := (Memory.read m a).isLt
    simp only [Memory.readLE, pow_succ]
    omega

/-- `sext_N` of an `N`-bit number lies in the `N`-bit signed range and keeps its residue. -/
theorem sext_spec {bits u : Nat} (hb : 0 < bits) (hu : u < 2 ^ bits) :
    -(2 ^ (bits - 1) : Int) ≤ sext bits u ∧ sext bits u < 2 ^ (bits - 1) ∧ sext bits u % 2 ^ bits = u := by
  obtain ⟨n, rfl⟩ : ∃ n, bits = n + 1 := ⟨bits - 1, by omega⟩
  have hpow : (2 : Int) ^ (n + 1) = 2 * 2 ^ n := by rw [pow_succ]; ring
  have hpos : (0 : Int) < 2 ^ n := by positivity
  have hu' : (u : Int) < 2 ^ (n + 1) := by exact_mod_cast hu
  simp only [sext, Nat.add_sub_cancel]
  split
  · rename_i h
    have h' : (u : Int) < 2 ^ n := by exact_mod_cast h
    exact ⟨by omega, h', Int.emod_eq_of_lt (by omega) (by omega)⟩
  · rename_i h
    have h' : (2 : Int) ^ n ≤ u := by exact_mod_cast Nat.le_of_not_lt h
    refine ⟨by omega, by omega, ?_⟩
    rw [Int.sub_emod_right]
    exact Int.emod_eq_of_lt (by omega) hu'

/-- The immediate of a mnemonic with width `w > 0` lies in the signed range of its field, and its residue is the
little-endian number that stands there. -/
theorem immediateAt_spec {c : Config} (buf : Memory) (pc0 : Nat) {m : Mnemonic} {w : Nat} (hw : m.width c = w)
    (h : 0 < w) :
    -(2 ^ (8 * w - 1) : Int) ≤ immediateAt c buf pc0 m ∧ immediateAt c buf pc0 m < 2 ^ (8 * w - 1) ∧
      immediateAt c buf pc0 m % 2 ^ (8 * w) = Memory.readLE buf (pc0 + 1) w := by
  subst hw
  obtain ⟨h1, h2⟩ := Format.access_bytes (m.format c)
  have hlt : Memory.readLE buf (pc0 + 1) (m.width c) < 2 ^ (8 * m.width c) := by
    rw [pow_mul]
    exact Memory.readLE_lt buf (pc0 + 1) (m.width c)
  cases ha : (m.format c).access with
  | none => exact absurd (h2.mp ha) (by unfold Mnemonic.width at h; omega)
  | some w =>
    have he : immediateAt c buf pc0 m = sext (8 * m.width c) (Memory.readLE buf (pc0 + 1) (m.width c)) := by
      simp [immediateAt, ha, Memory.memRead, h1 w ha, Mnemonic.width]
    rw [he]
    exact sext_spec (by omega) hlt

/-- JNZ's width is 1 or 2 (R90). -/
theorem Mnemonic.width_jnz (c : Config) : 0 < Mnemonic.width c .jnz ∧ Mnemonic.width c .jnz ≤ 2 := by
  unfold Mnemonic.width Mnemonic.format Format.width
  cases c.jnzW <;> simp

/-- What each of the four answers of the decoder says (R93). -/
theorem decode_inst {c : Config} {buf : Memory} {pc0 next : Nat} {i : Instr} (h : decode c buf pc0 = .inst i next) :
    ∃ m, pc0 < c.maxInsts ∧ c.opc.mnemonicOf (Memory.read buf pc0) = some m ∧ pc0 + m.len c ≤ c.maxInsts ∧
      i = Instr.build m (immediateAt c buf pc0 m) ∧ next = pc0 + m.len c := by
  simp only [decode] at h
  split at h
  · cases h
  · split at h
    · cases h
    · rename_i m hm
      split at h
      · cases h
      · cases h
        exact ⟨m, by omega, hm, by omega, rfl, rfl⟩

theorem decode_unknown {c : Config} {buf : Memory} {pc0 : Nat} {b : Byte} (h : decode c buf pc0 = .unknown b) :
    pc0 < c.maxInsts ∧ c.opc.mnemonicOf (Memory.read buf pc0) = none ∧ b = Memory.read buf pc0 := by
  simp only [decode] at h
  split at h
  · cases h
  · split at h
    · rename_i hm
      cases h
      exact ⟨by omega, hm, rfl⟩
    · split at h <;> cases h

theorem decode_extent {c : Config} {buf : Memory} {pc0 : Nat} {m : Mnemonic}
    (h : decode c buf pc0 = .extentOutOfRange m) :
    pc0 < c.maxInsts ∧ c.opc.mnemonicOf (Memory.read buf pc0) = some m ∧ c.maxInsts < pc0 + m.len c := by
  simp only [decode] at h
  split at h
  · cases h
  · split at h
    · cases h
    · rename_i m' hm
      split at h
      · cases h
        exact ⟨by omega, hm, by omega⟩
      · cases h

theorem decode_fetch {c : Config} {buf : Memory} {pc0 : Nat} (h : decode c buf pc0 = .fetchOutOfRange) :
    c.maxInsts ≤ pc0 := by
  simp only [decode] at h
  split at h
  · assumption
  · split at h
    · cases h
    · split at h <;> cases h

theorem decode_of_beyond {c : Config} {buf : Memory} {pc0 : Nat} (h : c.maxInsts ≤ pc0) :
    decode c buf pc0 = .fetchOutOfRange := if_pos h

theorem decode_of_unknown {c : Config} {buf : Memory} {pc0 : Nat} (h1 : pc0 < c.maxInsts)
    (h2 : c.opc.mnemonicOf (Memory.read buf pc0) = none) : decode c buf pc0 = .unknown (Memory.read buf pc0) := by
  simp only [decode]
  rw [if_neg (by omega)]
  simp only [h2]

theorem decode_of_cut {c : Config} {buf : Memory} {pc0 : Nat} {m : Mnemonic} (h1 : pc0 < c.maxInsts)
    (h2 : c.opc.mnemonicOf (Memory.read buf pc0) = some m) (h3 : c.maxInsts < pc0 + m.len c) :
    decode c buf pc0 = .extentOutOfRange m := by
  simp only [decode]
  rw [if_neg (by omega)]
  simp only [h2]
  rw [if_pos h3]

theorem decode_of_whole {c : Config} {buf : Memory} {pc0 : Nat} {m : Mnemonic} (h1 : pc0 < c.maxInsts)
    (h2 : c.opc.mnemonicOf (Memory.read buf pc0) = some m) (h3 : pc0 + m.len c ≤ c.maxInsts) :
    decode c buf pc0 = .inst (Instr.build m (immediateAt c buf pc0 m)) (pc0 + m.len c) := by
  simp only [decode]
  rw [if_neg (by omega)]
  simp only [h2]
  rw [if_neg (by omega)]

theorem leBytes_length (n : Nat) (v : Int) : (leBytes n v).length = n := by
  induction n generalizing v with
  | zero => rfl
  | succ n ih => simp [leBytes, ih]

/-- An integer's residue modulo 256^(n+1), split into its low byte and the rest. -/
theorem emod_256_mul (v b : Int) : v % (256 * b) = v % 256 + 256 * (v / 256 % b) := by
  have h : v / 256 / b = v / (256 * b) := by rw [Int.ediv_ediv]; simp
  rw [Int.emod_def, Int.emod_def v, Int.emod_def (v / 256), h]
  ring

end Sys2Proof
end

