-- ==== Sys2Proof/Laws/Exec.lean ====
section
/-! SUPPORT. Each meaning as an equation, and one inversion lemma per shape of instruction: when its meaning answers a next state, that state is its commit,
or one of its own fatal conditions, each with the condition under which it happens. -/

namespace Sys2Proof.Machine

variable {s t : State}

/-! Each meaning as its nest of checks, so that a proof rewrites with the checks' lemmas and unfolds no meaning. -/

theorem exec_nop : exec .nop s = .next (s.advance .nop) := rfl

theorem exec_push (n : Int) : exec (.push n) s = needRoom s (.next ((s.push (wrap32 n)).advance .push)) := rfl

theorem exec_pop : exec .pop s = needTop s fun _ => .next (s.pop.advance .pop) := rfl

theorem exec_load (r : Int) :
    exec (.load r) s = needRegister r s fun i => needRoom s (.next ((s.push (s.readReg i)).advance .load)) := rfl

theorem exec_store (r : Int) :
    exec (.store r) s = needRegister r s fun i => needTop s fun b => .next ((s.writeReg i b).pop.advance .store) := rfl

theorem exec_jmp (a : Int) : exec (.jmp a) s = needTarget a s fun i => .next (s.setIp i) := rfl

theorem exec_jz (a : Int) :
    exec (.jz a) s = needTarget a s fun i => needTop s fun b => .next (s.branch .jz (isZero b) i) := rfl

theorem exec_jnz (a : Int) :
    exec (.jnz a) s = needTarget a s fun i => needTop s fun b => .next (s.branch .jnz (isNonzero b) i) := rfl

theorem exec_add : exec .add s = needTwo s fun a b => .next (s.replaceTwo .add (aluAdd a b)) := rfl

theorem exec_sub : exec .sub s = needTwo s fun a b => .next (s.replaceTwo .sub (aluSub a b)) := rfl

theorem exec_mul : exec .mul s = needTwo s fun a b => .next (s.replaceTwo .mul (aluMul a b)) := rfl

theorem exec_div :
    exec .div s = needTwo s fun a b => needNonzero b s (.next (s.replaceTwo .div (aluDiv a b))) := rfl

theorem exec_print : exec .print s = needTop s fun b => .next ((s.emit b).pop.advance .print) := rfl

theorem exec_stop : exec .stop s = .next (s.advance .stop).halt := rfl

/-! The inversions. -/

theorem execPush_next {n : Int} (h : exec (.push n) s = .next t) :
    (s.sp < s.cfg.stackSize ∧ t = (s.push (wrap32 n)).advance .push) ∨
    (¬s.sp < s.cfg.stackSize ∧ t = s.faultedWith .resourceExhausted 0) := by
  obtain ⟨h1, h2⟩ | h := needRoom_next (show execPush n s = .next t from h)
  · exact .inl ⟨h1, (Host.Outcome.next.inj h2).symm⟩
  · exact .inr h

theorem execPop_next (h : exec .pop s = .next t) :
    (∃ b rest, s.stack = b :: rest ∧ t = s.pop.advance .pop) ∨
    (s.stack = [] ∧ t = s.faultedWith .resourceUnderflow 0) := by
  obtain ⟨b, rest, h1, h2⟩ | h := needTop_next (show execPop s = .next t from h)
  · exact .inl ⟨b, rest, h1, (Host.Outcome.next.inj h2).symm⟩
  · exact .inr h

theorem execLoad_next {r : Int} (h : exec (.load r) s = .next t) :
    (∃ i : Nat, r = i ∧ i < s.cfg.nregs ∧ s.sp < s.cfg.stackSize ∧ t = (s.push (s.readReg i)).advance .load) ∨
    (¬(0 ≤ r ∧ r < s.cfg.nregs) ∧ t = s.faultedWith .invalidRegister r) ∨
    ((0 ≤ r ∧ r < s.cfg.nregs) ∧ ¬s.sp < s.cfg.stackSize ∧ t = s.faultedWith .resourceExhausted 0) := by
  obtain ⟨i, hr, hi, h1⟩ | h := needRegister_next (show execLoad r s = .next t from h)
  · obtain ⟨h2, h3⟩ | h := needRoom_next h1
    · exact .inl ⟨i, hr, hi, h2, (Host.Outcome.next.inj h3).symm⟩
    · exact .inr (.inr ⟨by omega, h⟩)
  · exact .inr (.inl h)

theorem execStore_next {r : Int} (h : exec (.store r) s = .next t) :
    (∃ (i : Nat) (b : Word) (rest : List Word), r = i ∧ i < s.cfg.nregs ∧ s.stack = b :: rest ∧
      t = (s.writeReg i b).pop.advance .store) ∨
    (¬(0 ≤ r ∧ r < s.cfg.nregs) ∧ t = s.faultedWith .invalidRegister r) ∨
    ((0 ≤ r ∧ r < s.cfg.nregs) ∧ s.stack = [] ∧ t = s.faultedWith .resourceUnderflow 0) := by
  obtain ⟨i, hr, hi, h1⟩ | h := needRegister_next (show execStore r s = .next t from h)
  · obtain ⟨b, rest, h2, h3⟩ | h := needTop_next h1
    · exact .inl ⟨i, b, rest, hr, hi, h2, (Host.Outcome.next.inj h3).symm⟩
    · exact .inr (.inr ⟨by omega, h⟩)
  · exact .inr (.inl h)

theorem execJmp_next {a : Int} (h : exec (.jmp a) s = .next t) :
    (∃ i : Nat, a = i ∧ i < s.cfg.maxInsts ∧ t = s.setIp i) ∨
    (¬(0 ≤ a ∧ a < s.cfg.maxInsts) ∧ t = s.faultedWith .invalidAddress a) := by
  obtain ⟨i, ha, hi, h1⟩ | h := needTarget_next (show execJmp a s = .next t from h)
  · exact .inl ⟨i, ha, hi, (Host.Outcome.next.inj h1).symm⟩
  · exact .inr h

/-- The shape JZ and JNZ share, with their condition on the top word. -/
theorem branch_next {a : Int} {m : Mnemonic} {taken : Word → Bool}
    (h : (needTarget a s fun i => needTop s fun b => .next (s.branch m (taken b) i)) = .next t) :
    (∃ (i : Nat) (b : Word) (rest : List Word), a = i ∧ i < s.cfg.maxInsts ∧ s.stack = b :: rest ∧
      t = s.branch m (taken b) i) ∨
    (¬(0 ≤ a ∧ a < s.cfg.maxInsts) ∧ t = s.faultedWith .invalidAddress a) ∨
    ((0 ≤ a ∧ a < s.cfg.maxInsts) ∧ s.stack = [] ∧ t = s.faultedWith .resourceUnderflow 0) := by
  obtain ⟨i, ha, hi, h1⟩ | h := needTarget_next h
  · obtain ⟨b, rest, h2, h3⟩ | h := needTop_next h1
    · exact .inl ⟨i, b, rest, ha, hi, h2, (Host.Outcome.next.inj h3).symm⟩
    · exact .inr (.inr ⟨by omega, h⟩)
  · exact .inr (.inl h)

theorem execJz_next {a : Int} (h : exec (.jz a) s = .next t) :
    (∃ (i : Nat) (b : Word) (rest : List Word), a = i ∧ i < s.cfg.maxInsts ∧ s.stack = b :: rest ∧
      t = s.branch .jz (isZero b) i) ∨
    (¬(0 ≤ a ∧ a < s.cfg.maxInsts) ∧ t = s.faultedWith .invalidAddress a) ∨
    ((0 ≤ a ∧ a < s.cfg.maxInsts) ∧ s.stack = [] ∧ t = s.faultedWith .resourceUnderflow 0) :=
  branch_next (show execJz a s = .next t from h)

theorem execJnz_next {a : Int} (h : exec (.jnz a) s = .next t) :
    (∃ (i : Nat) (b : Word) (rest : List Word), a = i ∧ i < s.cfg.maxInsts ∧ s.stack = b :: rest ∧
      t = s.branch .jnz (isNonzero b) i) ∨
    (¬(0 ≤ a ∧ a < s.cfg.maxInsts) ∧ t = s.faultedWith .invalidAddress a) ∨
    ((0 ≤ a ∧ a < s.cfg.maxInsts) ∧ s.stack = [] ∧ t = s.faultedWith .resourceUnderflow 0) :=
  branch_next (show execJnz a s = .next t from h)

/-- The shape ADD, SUB and MUL share, with their operation. -/
theorem binary_next {m : Mnemonic} {op : Word → Word → Word}
    (h : (needTwo s fun a b => .next (s.replaceTwo m (op a b))) = .next t) :
    (∃ a b rest, s.stack = b :: a :: rest ∧ t = s.replaceTwo m (op a b)) ∨
    (s.sp < 2 ∧ t = s.faultedWith .resourceUnderflow 0) := by
  obtain ⟨a, b, rest, h1, h2⟩ | h := needTwo_next h
  · exact .inl ⟨a, b, rest, h1, (Host.Outcome.next.inj h2).symm⟩
  · exact .inr h

theorem execAdd_next (h : exec .add s = .next t) :
    (∃ a b rest, s.stack = b :: a :: rest ∧ t = s.replaceTwo .add (aluAdd a b)) ∨
    (s.sp < 2 ∧ t = s.faultedWith .resourceUnderflow 0) := binary_next (show execAdd s = .next t from h)

theorem execSub_next (h : exec .sub s = .next t) :
    (∃ a b rest, s.stack = b :: a :: rest ∧ t = s.replaceTwo .sub (aluSub a b)) ∨
    (s.sp < 2 ∧ t = s.faultedWith .resourceUnderflow 0) := binary_next (show execSub s = .next t from h)

theorem execMul_next (h : exec .mul s = .next t) :
    (∃ a b rest, s.stack = b :: a :: rest ∧ t = s.replaceTwo .mul (aluMul a b)) ∨
    (s.sp < 2 ∧ t = s.faultedWith .resourceUnderflow 0) := binary_next (show execMul s = .next t from h)

theorem execDiv_next (h : exec .div s = .next t) :
    (∃ a b rest, s.stack = b :: a :: rest ∧ b ≠ 0#32 ∧ t = s.replaceTwo .div (aluDiv a b)) ∨
    (s.sp < 2 ∧ t = s.faultedWith .resourceUnderflow 0) ∨
    (∃ a rest, s.stack = 0#32 :: a :: rest ∧ t = s.faultedWith .arithmeticFault 0) := by
  obtain ⟨a, b, rest, h1, h2⟩ | h := needTwo_next (show execDiv s = .next t from h)
  · obtain ⟨h3, h4⟩ | ⟨h3, h4⟩ := needNonzero_next h2
    · exact .inl ⟨a, b, rest, h1, h3, (Host.Outcome.next.inj h4).symm⟩
    · exact .inr (.inr ⟨a, rest, h3 ▸ h1, h4⟩)
  · exact .inr (.inl h)

theorem execPrint_next (h : exec .print s = .next t) :
    (∃ b rest, s.stack = b :: rest ∧ t = (s.emit b).pop.advance .print) ∨
    (s.stack = [] ∧ t = s.faultedWith .resourceUnderflow 0) := by
  obtain ⟨b, rest, h1, h2⟩ | h := needTop_next (show execPrint s = .next t from h)
  · exact .inl ⟨b, rest, h1, (Host.Outcome.next.inj h2).symm⟩
  · exact .inr h

theorem execNop_next (h : exec .nop s = .next t) : t = s.advance .nop := (Host.Outcome.next.inj h).symm

theorem execStop_next (h : exec .stop s = .next t) : t = (s.advance .stop).halt := (Host.Outcome.next.inj h).symm

/-- Every meaning answers a next state: a commit or a fatal condition. -/
theorem exec_answers (i : Instr) (s : State) : ∃ t, exec i s = .next t := by
  have top : ∀ k : Word → Result, (∀ b, ∃ t, k b = .next t) → ∃ t, needTop s k = .next t := by
    intro k hk
    cases hs : s.stack with
    | nil => exact ⟨_, needTop_fail k hs⟩
    | cons b rest => rw [needTop_pass k hs]; exact hk b
  have two : ∀ k : Word → Word → Result, (∀ a b, ∃ t, k a b = .next t) → ∃ t, needTwo s k = .next t := by
    intro k hk
    match hs : s.stack with
    | [] => exact ⟨_, needTwo_fail k (by simp [State.sp_eq, hs])⟩
    | [_] => exact ⟨_, needTwo_fail k (by simp [State.sp_eq, hs])⟩
    | b :: a :: rest => rw [needTwo_pass k hs]; exact hk a b
  have reg : ∀ (r : Int) (k : Nat → Result), (∀ i, ∃ t, k i = .next t) → ∃ t, needRegister r s k = .next t := by
    intro r k hk
    unfold needRegister
    split_ifs
    · exact hk _
    · exact ⟨_, rfl⟩
  have target : ∀ (a : Int) (k : Nat → Result), (∀ i, ∃ t, k i = .next t) → ∃ t, needTarget a s k = .next t := by
    intro a k hk
    unfold needTarget
    split_ifs
    · exact hk _
    · exact ⟨_, rfl⟩
  have room : ∀ u : State, ∃ t, needRoom s (.next u) = .next t := by
    intro u
    unfold needRoom
    split_ifs <;> exact ⟨_, rfl⟩
  cases i with
  | nop => exact ⟨_, rfl⟩
  | push n => exact room _
  | pop => exact top _ fun _ => ⟨_, rfl⟩
  | load r => exact reg _ _ fun _ => room _
  | store r => rw [exec_store]; exact reg _ _ fun _ => top _ fun _ => ⟨_, rfl⟩
  | jmp a => exact target _ _ fun _ => ⟨_, rfl⟩
  | jz a => rw [exec_jz]; exact target _ _ fun _ => top _ fun _ => ⟨_, rfl⟩
  | jnz a => rw [exec_jnz]; exact target _ _ fun _ => top _ fun _ => ⟨_, rfl⟩
  | add => exact two _ fun _ _ => ⟨_, rfl⟩
  | sub => exact two _ fun _ _ => ⟨_, rfl⟩
  | mul => exact two _ fun _ _ => ⟨_, rfl⟩
  | div =>
    refine two _ fun a b => ?_
    unfold needNonzero
    split_ifs <;> exact ⟨_, rfl⟩
  | print => exact top _ fun _ => ⟨_, rfl⟩
  | stop => exact ⟨_, rfl⟩

/-- What a commit may change, whatever the instruction (10_state.md R42). -/
structure Commit (i : Instr) (s t : State) : Prop where
  cfg          : t.cfg = s.cfg
  instructions : t.instructions = s.instructions
  faultKind    : t.faultKind = s.faultKind
  faultPc      : t.faultPc = s.faultPc
  faultInfo    : t.faultInfo = s.faultInfo
  bank         : t.registers.length = s.registers.length
  register     : ∀ j : Nat, t.registers[j]? ≠ s.registers[j]? → i = .store j ∧ t.registers[j]? = s.stack.head?
  output       : t.out ≠ s.out → i = .print ∧ ∃ b, s.stack.head? = some b ∧ t.out = s.out ++ [b]
  status       : (i ≠ .stop ∧ t.status = s.status) ∨ (i = .stop ∧ t.status = .halted)
  ip           : t.ip = s.ip + i.mnemonic.len s.cfg ∨
                   ∃ a : Nat, (i = .jmp a ∨ i = .jz a ∨ i = .jnz a) ∧ a < s.cfg.maxInsts ∧ t.ip = a
  depth        : t.sp ≤ s.sp ∨ t.sp ≤ s.cfg.stackSize

/-- The commit of an instruction that is neither STORE, PRINT, STOP nor a jump: the record update is known and every claim
of `Commit` but the depth is by `rfl`. -/
theorem commit_plain {i : Instr} {m : Mnemonic} {l : List Word} (hm : i.mnemonic = m) (hi : i ≠ .stop)
    (hl : l.length ≤ s.sp ∨ l.length ≤ s.cfg.stackSize) :
    Commit i s (State.advance m { s with stack := l }) where
  cfg := rfl
  instructions := rfl
  faultKind := rfl
  faultPc := rfl
  faultInfo := rfl
  bank := rfl
  register := fun _ h => absurd rfl h
  output := fun h => absurd rfl h
  status := .inl ⟨hi, rfl⟩
  ip := .inl (by rw [hm]; rfl)
  depth := hl

/-- The commit of a jump: `ip` is the target or `next`. -/
theorem commit_branch {i : Instr} {a : Nat} (taken : Bool) (hi : i ≠ .stop) (ha : a < s.cfg.maxInsts)
    (hj : i = .jmp a ∨ i = .jz a ∨ i = .jnz a) : Commit i s (s.branch i.mnemonic taken a) := by
  cases taken
  · exact commit_plain (l := s.stack) rfl hi (.inl (Nat.le_refl _))
  · exact
      { cfg := rfl, instructions := rfl, faultKind := rfl, faultPc := rfl, faultInfo := rfl, bank := rfl
        register := fun _ h => absurd rfl h
        output := fun h => absurd rfl h
        status := .inl ⟨hi, rfl⟩
        ip := .inr ⟨a, hj, ha, rfl⟩
        depth := .inl (Nat.le_refl _) }

theorem commit_two {i : Instr} {m : Mnemonic} {r : Word} (hm : i.mnemonic = m) (hi : i ≠ .stop) :
    Commit i s (s.replaceTwo m r) :=
  commit_plain hm hi (.inl (by simp [State.sp_eq]))

/-- What any instruction can do, said once: it raises a fatal condition, which changes only `status` and the record, or it
commits. -/
theorem exec_effect {i : Instr} (h : exec i s = .next t) : (∃ k info, t = s.faultedWith k info) ∨ Commit i s t := by
  have popped : s.stack.tail.length ≤ s.sp := by simp [State.sp_eq]
  cases i with
  | nop => rw [execNop_next h]; exact .inr (commit_plain (l := s.stack) rfl (by simp) (.inl (Nat.le_refl _)))
  | push n =>
    obtain ⟨hs, rfl⟩ | ⟨_, rfl⟩ := execPush_next h
    · exact .inr (commit_plain rfl (by simp) (.inr hs))
    · exact .inl ⟨_, _, rfl⟩
  | pop =>
    obtain ⟨_, _, _, rfl⟩ | ⟨_, rfl⟩ := execPop_next h
    · exact .inr (commit_plain rfl (by simp) (.inl popped))
    · exact .inl ⟨_, _, rfl⟩
  | load r =>
    obtain ⟨_, _, _, hs, rfl⟩ | ⟨_, rfl⟩ | ⟨_, _, rfl⟩ := execLoad_next h
    · exact .inr (commit_plain rfl (by simp) (.inr hs))
    all_goals exact .inl ⟨_, _, rfl⟩
  | store r =>
    obtain ⟨n, b, rest, rfl, hn, hs, rfl⟩ | ⟨_, rfl⟩ | ⟨_, _, rfl⟩ := execStore_next h
    · refine .inr { commit_plain (i := .store n) (l := s.stack.tail) rfl (by simp) (.inl popped) with
        bank := by simp, register := fun j hj => ?_ }
      have hnj : n = j := by
        by_contra hne
        exact hj (by simp [hne])
      subst hnj
      have hlt : n < s.registers.length := by
        by_contra hge
        exact hj (by simp [Nat.le_of_not_lt hge])
      exact ⟨rfl, by simp [hs, hlt]⟩
    all_goals exact .inl ⟨_, _, rfl⟩
  | jmp a =>
    obtain ⟨n, rfl, hn, rfl⟩ | ⟨_, rfl⟩ := execJmp_next h
    · exact .inr (commit_branch true (by simp) hn (.inl rfl))
    · exact .inl ⟨_, _, rfl⟩
  | jz a =>
    obtain ⟨n, b, _, rfl, hn, _, rfl⟩ | ⟨_, rfl⟩ | ⟨_, _, rfl⟩ := execJz_next h
    · exact .inr (commit_branch (i := .jz n) _ (by simp) hn (.inr (.inl rfl)))
    all_goals exact .inl ⟨_, _, rfl⟩
  | jnz a =>
    obtain ⟨n, b, _, rfl, hn, _, rfl⟩ | ⟨_, rfl⟩ | ⟨_, _, rfl⟩ := execJnz_next h
    · exact .inr (commit_branch (i := .jnz n) _ (by simp) hn (.inr (.inr rfl)))
    all_goals exact .inl ⟨_, _, rfl⟩
  | add =>
    obtain ⟨_, _, _, _, rfl⟩ | ⟨_, rfl⟩ := execAdd_next h
    · exact .inr (commit_two rfl (by simp))
    · exact .inl ⟨_, _, rfl⟩
  | sub =>
    obtain ⟨_, _, _, _, rfl⟩ | ⟨_, rfl⟩ := execSub_next h
    · exact .inr (commit_two rfl (by simp))
    · exact .inl ⟨_, _, rfl⟩
  | mul =>
    obtain ⟨_, _, _, _, rfl⟩ | ⟨_, rfl⟩ := execMul_next h
    · exact .inr (commit_two rfl (by simp))
    · exact .inl ⟨_, _, rfl⟩
  | div =>
    obtain ⟨_, _, _, _, _, rfl⟩ | ⟨_, rfl⟩ | ⟨_, _, _, rfl⟩ := execDiv_next h
    · exact .inr (commit_two rfl (by simp))
    all_goals exact .inl ⟨_, _, rfl⟩
  | print =>
    obtain ⟨b, _, hs, rfl⟩ | ⟨_, rfl⟩ := execPrint_next h
    · exact .inr { commit_plain (i := .print) (l := s.stack.tail) rfl (by simp) (.inl popped) with
        output := fun _ => ⟨rfl, b, by simp [hs], rfl⟩ }
    · exact .inl ⟨_, _, rfl⟩
  | stop =>
    rw [execStop_next h]
    exact .inr
      { cfg := rfl, instructions := rfl, faultKind := rfl, faultPc := rfl, faultInfo := rfl, bank := rfl
        register := fun _ h => absurd rfl h
        output := fun h => absurd rfl h
        status := .inr ⟨rfl, rfl⟩
        ip := .inl rfl
        depth := .inl (Nat.le_refl _) }

end Sys2Proof.Machine
end

