-- ==== Sys2Proof/Laws/Memory.lean ====
section
/-! SUPPORT. The laws of the instruction buffer's list: read after write, the canonical form is kept, and equal readings
are equal lists. -/

namespace Sys2Proof.Memory

@[simp] theorem read_nil (x : Nat) : read [] x = unlisted := rfl

theorem wfFrom_mono {lo lo' : Nat} {m : Memory} (h : lo' ≤ lo) (hm : wfFrom lo m = true) : wfFrom lo' m = true := by
  cases m with
  | nil => rfl
  | cons c m =>
    obtain ⟨a, b⟩ := c
    simp only [wfFrom, Bool.and_eq_true, decide_eq_true_eq] at hm ⊢
    exact ⟨⟨by omega, hm.1.2⟩, hm.2⟩

/-- Below its first address a canonical list reads as unlisted. -/
theorem read_of_lt {lo : Nat} {m : Memory} (hm : wfFrom lo m = true) {x : Nat} (hx : x < lo) : read m x = unlisted := by
  induction m generalizing lo with
  | nil => rfl
  | cons c m ih =>
    obtain ⟨a, b⟩ := c
    simp only [wfFrom, Bool.and_eq_true, decide_eq_true_eq] at hm
    have hne : x ≠ a := by omega
    simp only [read, if_neg hne]
    exact ih hm.2 (by omega)

/-- A read after a write to the same address gives the value written; a write leaves every other address alone. -/
theorem read_write {lo : Nat} {m : Memory} (hm : wfFrom lo m = true) (x y : Nat) (v : Byte) :
    read (write m x v) y = if y = x then v else read m y := by
  induction m generalizing lo with
  | nil =>
    by_cases hv : v = unlisted
    · simp [write, hv]
    · simp [write, hv, read]
  | cons c m ih =>
    obtain ⟨a, b⟩ := c
    simp only [wfFrom, Bool.and_eq_true, decide_eq_true_eq] at hm
    have low : ∀ z, z ≤ a → read m z = unlisted := fun z hz => read_of_lt hm.2 (by omega)
    by_cases hxa : x < a
    · by_cases hv : v = unlisted
      · by_cases hy : y = x
        · have hya : y ≠ a := by omega
          simp only [write, if_pos hxa, if_pos hv, read, if_neg hya, if_pos hy]
          exact (low y (by omega)).trans hv.symm
        · simp [write, hxa, hv, hy]
      · simp [write, hxa, hv, read]
    · by_cases hx : x = a
      · by_cases hv : v = unlisted
        · by_cases hy : y = x
          · simp [write, hx, hv, hy, low a (by omega)]
          · simp [write, hx, hv, read, hx ▸ hy]
        · by_cases hy : y = x
          · simp [write, hx, hv, read, hy]
          · simp [write, hx, hv, read, hx ▸ hy]
      · by_cases hy : y = a
        · have hax : a ≠ x := by omega
          simp [write, hxa, hx, read, hy, hax]
        · simp only [write, if_neg hxa, if_neg hx, read, if_neg hy]
          exact ih hm.2

/-- A write keeps the canonical form. -/
theorem wfFrom_write {lo : Nat} {m : Memory} (hm : wfFrom lo m = true) {x : Nat} (hx : lo ≤ x) (v : Byte) :
    wfFrom lo (write m x v) = true := by
  induction m generalizing lo with
  | nil => by_cases hv : v = unlisted <;> simp [write, hv, wfFrom, hx]
  | cons c m ih =>
    obtain ⟨a, b⟩ := c
    have hm' := hm
    simp only [wfFrom, Bool.and_eq_true, decide_eq_true_eq] at hm
    by_cases hxa : x < a
    · by_cases hv : v = unlisted
      · simpa [write, hxa, hv] using hm'
      · simp only [write, if_pos hxa, if_neg hv, wfFrom, Bool.and_eq_true, decide_eq_true_eq]
        exact ⟨⟨hx, hv⟩, ⟨by omega, hm.1.2⟩, hm.2⟩
    · by_cases hxe : x = a
      · by_cases hv : v = unlisted
        · simp only [write, if_neg hxa, if_pos hxe, if_pos hv]
          exact wfFrom_mono (by omega) hm.2
        · simp only [write, if_neg hxa, if_pos hxe, if_neg hv, wfFrom, Bool.and_eq_true, decide_eq_true_eq]
          exact ⟨⟨hx, hv⟩, hxe ▸ hm.2⟩
      · simp only [write, if_neg hxa, if_neg hxe, wfFrom, Bool.and_eq_true, decide_eq_true_eq]
        exact ⟨hm.1, ih hm.2 (by omega)⟩

theorem wf_write {m : Memory} (hm : wf m = true) (x : Nat) (v : Byte) : wf (write m x v) = true :=
  wfFrom_write hm (Nat.zero_le x) v

theorem wf_writeBytes {m : Memory} (hm : wf m = true) (a : Nat) (bs : List Byte) : wf (writeBytes m a bs) = true := by
  induction bs generalizing m a with
  | nil => exact hm
  | cons b bs ih => exact ih (wf_write hm a b) (a + 1)

theorem below_write {n : Nat} {m : Memory} (hm : below n m = true) {x : Nat} (hx : x < n) (v : Byte) :
    below n (write m x v) = true := by
  induction m with
  | nil => by_cases hv : v = unlisted <;> simp [write, hv, below, hx]
  | cons c m ih =>
    obtain ⟨a, b⟩ := c
    simp only [below, Bool.and_eq_true, decide_eq_true_eq] at hm
    simp only [write]
    split_ifs <;> simp [below, hm, hx, ih hm.2]

theorem below_writeBytes {n : Nat} {m : Memory} (hm : below n m = true) (a : Nat) (bs : List Byte)
    (h : a + bs.length ≤ n) : below n (writeBytes m a bs) = true := by
  induction bs generalizing m a with
  | nil => exact hm
  | cons b bs ih =>
    simp only [List.length_cons] at h
    exact ih (below_write hm (by omega) b) (a + 1) (by omega)

/-- What consecutive writes leave: the bytes written inside their range, the old bytes outside it. -/
theorem read_writeBytes {m : Memory} (hm : wf m = true) (a : Nat) (bs : List Byte) (x : Nat) :
    read (writeBytes m a bs) x = if h : a ≤ x ∧ x < a + bs.length then bs[x - a]'(by omega) else read m x := by
  induction bs generalizing m a with
  | nil => simp [writeBytes]
  | cons b bs ih =>
    rw [writeBytes, ih (wf_write hm a b) (a + 1), read_write hm]
    by_cases hx : x = a
    · subst hx
      simp
    · by_cases hr : a + 1 ≤ x ∧ x < a + 1 + bs.length
      · have hr' : a ≤ x ∧ x < a + (b :: bs).length := by simp only [List.length_cons]; omega
        obtain ⟨k, hk⟩ : ∃ k, x = a + 1 + k := ⟨x - (a + 1), by omega⟩
        subst hk
        rw [dif_pos hr, dif_pos hr']
        simp [(by omega : a + 1 + k - (a + 1) = k), (by omega : a + 1 + k - a = k + 1)]
      · have hr' : ¬(a ≤ x ∧ x < a + (b :: bs).length) := by simp only [List.length_cons]; omega
        rw [dif_neg hr, dif_neg hr', if_neg hx]

/-- No address at or beyond the bound is listed. -/
theorem read_of_below {n : Nat} {m : Memory} (hm : below n m = true) {x : Nat} (hx : n ≤ x) : read m x = unlisted := by
  induction m with
  | nil => rfl
  | cons c m ih =>
    obtain ⟨a, b⟩ := c
    simp only [below, Bool.and_eq_true, decide_eq_true_eq] at hm
    simp only [read, if_neg (by omega : x ≠ a)]
    exact ih hm.2

end Sys2Proof.Memory
end

