-- ==== Sys2Proof/Laws/PerInstr.lean ====
section
/-! SUPPORT. The per-instruction family EncodedLength: the bytes of an instruction are as many as its length `1 + w`
(spec/30_encoding.md R81, R82, R89). -/

namespace Sys2Proof.Laws.EncodedLength

/-- The encoded instruction has `1 + w` bytes, under every configuration. -/
def Statement (i : Instr) : Prop := ∀ c : Config, (encode c i).length = i.mnemonic.len c

/-- An instruction without an operand is its opcode byte. -/
theorem of_no_operand {i : Instr} (h : i.operand = none) (hw : ∀ c, i.mnemonic.width c = 0) : Statement i :=
  fun c => by simp [encode, h, Mnemonic.len, hw c]

/-- An instruction with an operand is its opcode byte and `w` bytes of the operand. -/
theorem of_operand {i : Instr} {v : Int} (h : i.operand = some v) : Statement i :=
  fun c => by simp [encode, h, Mnemonic.len, leBytes_length, Nat.add_comm]

theorem nop : Statement .nop := of_no_operand rfl fun _ => rfl
theorem push (n : Int) : Statement (.push n) := of_operand rfl
theorem pop : Statement .pop := of_no_operand rfl fun _ => rfl
theorem load (r : Int) : Statement (.load r) := of_operand rfl
theorem store (r : Int) : Statement (.store r) := of_operand rfl
theorem jmp (a : Int) : Statement (.jmp a) := of_operand rfl
theorem jz (a : Int) : Statement (.jz a) := of_operand rfl
theorem jnz (a : Int) : Statement (.jnz a) := of_operand rfl
theorem add : Statement .add := of_no_operand rfl fun _ => rfl
theorem sub : Statement .sub := of_no_operand rfl fun _ => rfl
theorem mul : Statement .mul := of_no_operand rfl fun _ => rfl
theorem div : Statement .div := of_no_operand rfl fun _ => rfl
theorem print : Statement .print := of_no_operand rfl fun _ => rfl
theorem stop : Statement .stop := of_no_operand rfl fun _ => rfl

end Sys2Proof.Laws.EncodedLength
end

