-- ==== Sys2Proof/Laws/Step.lean ====
section
/-! SUPPORT. What a step can do, said once: its four ways of going on while RUNNING, and its stop in the other statuses. -/

namespace Sys2Proof.Machine

variable {s t : State}

theorem step_running (h : s.status = .running) : step s = runDecoded s.decodeHere s := by simp [step, stepIn, h]

theorem step_stops (h : s.status ≠ .running) (t : State) : step s ≠ .next t := by
  cases hs : s.status <;> simp_all [step, stepIn]

/-- A step that answers a next state was taken in RUNNING, and it raised one of the three conditions of phases 1 to 3 or
ran the decoded instruction. -/
theorem step_next (h : step s = .next t) :
    s.status = .running ∧
      ((s.decodeHere = .fetchOutOfRange ∧ t = s.faultedWith .invalidAddress s.ip) ∨
       (∃ b, s.decodeHere = .unknown b ∧ t = s.faultedWith .invalidOpcode b.toNat) ∨
       (∃ m, s.decodeHere = .extentOutOfRange m ∧ t = s.faultedWith .invalidAddress (s.ip + m.width s.cfg : Nat)) ∨
       ∃ i next, s.decodeHere = .inst i next ∧ exec i s = .next t) := by
  have hr : s.status = .running := by
    by_contra hn
    exact step_stops hn t h
  refine ⟨hr, ?_⟩
  rw [step_running hr] at h
  cases hd : s.decodeHere with
  | fetchOutOfRange => rw [hd] at h; exact .inl ⟨rfl, (Host.Outcome.next.inj h).symm⟩
  | unknown b => rw [hd] at h; exact .inr (.inl ⟨b, rfl, (Host.Outcome.next.inj h).symm⟩)
  | extentOutOfRange m => rw [hd] at h; exact .inr (.inr (.inl ⟨m, rfl, (Host.Outcome.next.inj h).symm⟩))
  | inst i next => rw [hd] at h; exact .inr (.inr (.inr ⟨i, next, rfl, h⟩))

/-- What a step can do, in the terms of `Commit`: it raises a fatal condition or it commits the decoded instruction. -/
theorem step_effect (h : step s = .next t) :
    (∃ k info, t = s.faultedWith k info) ∨ ∃ i next, s.decodeHere = .inst i next ∧ exec i s = .next t ∧ Commit i s t := by
  obtain ⟨_, ⟨_, h⟩ | ⟨_, _, h⟩ | ⟨_, _, h⟩ | ⟨i, next, hd, he⟩⟩ := step_next h
  · exact .inl ⟨_, _, h⟩
  · exact .inl ⟨_, _, h⟩
  · exact .inl ⟨_, _, h⟩
  · obtain hr | hc := exec_effect he
    · exact .inl hr
    · exact .inr ⟨i, next, hd, he, hc⟩

theorem tick_running (h : s.status = .running) : tick s = step s := by simp [tick, h]

theorem tick_stopped (h : s.status ≠ .running) : tick s = .next s := by
  cases hs : s.status <;> simp_all [tick]

theorem runLoop_succ_of_tick {k : Nat} (h : tick s = .next t) : runLoop (k + 1) s = runLoop k t := by
  simp [runLoop, h]

theorem tick_next (h : tick s = .next t) :
    (s.status = .running ∧ step s = .next t) ∨ (s.status ≠ .running ∧ t = s) := by
  by_cases hr : s.status = .running
  · exact .inl ⟨hr, by rwa [tick_running hr] at h⟩
  · rw [tick_stopped hr] at h
    exact .inr ⟨hr, (Host.Outcome.next.inj h).symm⟩

theorem runLoop_succ_next {k : Nat} (h : runLoop (k + 1) s = .next t) : ∃ u, tick s = .next u ∧ runLoop k u = .next t := by
  simp only [runLoop] at h
  split at h
  · exact ⟨_, by assumption, h⟩
  · cases h
  · cases h

/-- The induction over a run, packaged: a relation that is reflexive and that a step extends at the front holds between the
first and the last state of every run. -/
theorem runLoop_induction {P : State → State → Prop} (base : ∀ s, P s s)
    (front : ∀ s t u, step s = .next t → P t u → P s u) (k : Nat) (s t : State) (h : runLoop k s = .next t) : P s t := by
  induction k generalizing s with
  | zero => exact Host.Outcome.next.inj h ▸ base s
  | succ k ih =>
    obtain ⟨u, h1, h2⟩ := runLoop_succ_next h
    obtain ⟨_, h1⟩ | ⟨_, rfl⟩ := tick_next h1
    · exact front s u t h1 (ih u h2)
    · exact ih u h2

theorem whenIdle_idle (f : State → State) (h : s.status = .idle) : s.whenIdle f = f s := by simp [State.whenIdle, h]

theorem whenIdle_other (f : State → State) (h : s.status ≠ .idle) : s.whenIdle f = s := by
  cases hs : s.status <;> simp_all [State.whenIdle]

end Sys2Proof.Machine
end

