-- ==== Sys2Proof/Tests/Slice0.lean ====
section
/-! SUPPORT. The model's own tests. Expected results come from spec/95_test_vectors.md (V<n>, S<n>) and from the encodings
of spec/30_encoding.md, none from the model. First the well-formedness checks, the decoder and the encoder, then at most
two steps an instruction, the step's own faults, the host's events, and one witness for each statement of
Certificates/Slice0/Obligations.lean that has hypotheses. -/

namespace Sys2Proof.Tests

open Sys2Proof.Machine

/-! Helpers -/

/-- A core of small capacities. -/
def tiny : Config := { Config.standard with maxInsts := 8, stackSize := 2, nregs := 2 }

/-- The same core with the non-normative `JNZ_W = 1`. -/
def tinyNarrow : Config := { tiny with jnzW := .one }

/-- A RUNNING state with bytes at its instruction pointer and a stack written bottom first, as the vectors write it. -/
def running (c : Config) (ip : Nat) (bytes : List Byte) (stack : List Int) : State :=
  { State.resetOf c with
    instructions := Memory.writeBytes [] ip bytes, stack := (stack.map (BitVec.ofInt 32)).reverse, ip := ip,
    status := .running }

/-- The answer is a next state of which `p` holds. -/
def nextIs (r : Result) (p : State → Bool) : Bool :=
  match r with
  | .next t    => p t
  | .fault _   => false
  | .refused _ => false

theorem nextIs_spec {r : Result} {p : State → Bool} (h : nextIs r p = true) : ∃ t, r = .next t ∧ p t = true := by
  unfold nextIs at h
  split at h
  · exact ⟨_, rfl, h⟩
  · cases h
  · cases h

/-- The signed values of the live stack, bottom first. -/
def State.values (s : State) : List Int := s.stack.reverse.map BitVec.toInt

/-- "Fault K(pc, info)" of the vectors. -/
def State.isFault (s : State) (k : FatalKind) (pc : Nat) (info : Int) : Bool :=
  s.status == .faulted && s.faultKind == some k && s.faultPc == pc && s.faultInfo == info

/-! WellFormed refuses one ill-formed term for each check, beside the nearest accepted. -/

theorem test_wf_push : (Instr.push 2147483648).wellFormed tiny = false ∧ (Instr.push 2147483647).wellFormed tiny = true ∧
    (Instr.push (-2147483649)).wellFormed tiny = false ∧ (Instr.push (-2147483648)).wellFormed tiny = true := by decide

theorem test_wf_load : (Instr.load 128).wellFormed tiny = false ∧ (Instr.load 127).wellFormed tiny = true ∧
    (Instr.load (-129)).wellFormed tiny = false ∧ (Instr.load (-128)).wellFormed tiny = true := by decide

theorem test_wf_store : (Instr.store 128).wellFormed tiny = false ∧ (Instr.store 127).wellFormed tiny = true ∧
    (Instr.store (-129)).wellFormed tiny = false ∧ (Instr.store (-128)).wellFormed tiny = true := by decide

theorem test_wf_jmp : (Instr.jmp 32768).wellFormed tiny = false ∧ (Instr.jmp 32767).wellFormed tiny = true ∧
    (Instr.jmp (-32769)).wellFormed tiny = false ∧ (Instr.jmp (-32768)).wellFormed tiny = true := by decide

theorem test_wf_jz : (Instr.jz 32768).wellFormed tiny = false ∧ (Instr.jz 32767).wellFormed tiny = true ∧
    (Instr.jz (-32769)).wellFormed tiny = false ∧ (Instr.jz (-32768)).wellFormed tiny = true := by decide

theorem test_wf_jnz : (Instr.jnz 32768).wellFormed tiny = false ∧ (Instr.jnz 32767).wellFormed tiny = true ∧
    (Instr.jnz 128).wellFormed tinyNarrow = false ∧ (Instr.jnz 127).wellFormed tinyNarrow = true := by decide

/-! Decoding, section 2 of the vectors, under the default parameters. -/

/-- Decode bytes placed at `pc0`. -/
def decodeAt (c : Config) (pc0 : Nat) (bytes : List Byte) : DecodeResult := decode c (Memory.writeBytes [] pc0 bytes) pc0

theorem test_decode_push_V1 : decodeAt Config.standard 0 [0x01, 0x2C, 0x01, 0x00, 0x00] = .inst (.push 300) 5 := by decide
theorem test_decode_push_V2 : decodeAt Config.standard 0 [0x01, 0xFF, 0xFF, 0xFF, 0xFF] = .inst (.push (-1)) 5 := by decide
theorem test_decode_push_V3 :
    decodeAt Config.standard 0 [0x01, 0x00, 0x00, 0x00, 0x80] = .inst (.push (-2147483648)) 5 := by decide
theorem test_decode_push_V4 :
    decodeAt Config.standard 0 [0x01, 0xFF, 0xFF, 0xFF, 0x7F] = .inst (.push 2147483647) 5 := by decide
theorem test_decode_push_V5 :
    decodeAt Config.standard 10 [0x01, 0x78, 0x56, 0x34, 0x12] = .inst (.push 305419896) 15 := by decide
theorem test_decode_load_V6 : decodeAt Config.standard 0 [0x03, 0x7F] = .inst (.load 127) 2 := by decide
theorem test_decode_load_V7 : decodeAt Config.standard 0 [0x03, 0x80] = .inst (.load (-128)) 2 := by decide
theorem test_decode_store_V8 : decodeAt Config.standard 0 [0x04, 0xFF] = .inst (.store (-1)) 2 := by decide
theorem test_decode_jmp_V9 : decodeAt Config.standard 0 [0x05, 0xFF, 0x7F] = .inst (.jmp 32767) 3 := by decide
theorem test_decode_jmp_V10 : decodeAt Config.standard 0 [0x05, 0x00, 0x80] = .inst (.jmp (-32768)) 3 := by decide
theorem test_decode_jz_V11 : decodeAt Config.standard 7 [0x06, 0x34, 0x12] = .inst (.jz 4660) 10 := by decide
theorem test_decode_jnz_V12 : decodeAt Config.standard 36 [0x07, 0x10, 0x00] = .inst (.jnz 16) 39 := by decide
theorem test_decode_jnz_V22 :
    decodeAt { Config.standard with jnzW := .one } 36 [0x07, 0x10] = .inst (.jnz 16) 38 := by decide

theorem test_decode_plain_V13 :
    decodeAt Config.standard 4 [0x00] = .inst .nop 5 ∧ decodeAt Config.standard 4 [0x02] = .inst .pop 5 ∧
    decodeAt Config.standard 4 [0x08] = .inst .add 5 ∧ decodeAt Config.standard 4 [0x09] = .inst .sub 5 ∧
    decodeAt Config.standard 4 [0x0A] = .inst .mul 5 ∧ decodeAt Config.standard 4 [0x0B] = .inst .div 5 ∧
    decodeAt Config.standard 4 [0x0C] = .inst .print 5 ∧ decodeAt Config.standard 4 [0x0D] = .inst .stop 5 := by decide

theorem test_decode_unknown_V14_V15 :
    decodeAt Config.standard 3 [0x0E] = .unknown 0x0E ∧ decodeAt Config.standard 3 [0xFF] = .unknown 0xFF := by decide

theorem test_decode_ends_V16_to_V21 :
    decodeAt Config.standard 65536 [0x01] = .fetchOutOfRange ∧
    decodeAt Config.standard 65531 [0x01, 0x07] = .inst (.push 7) 65536 ∧
    decodeAt Config.standard 65532 [0x01] = .extentOutOfRange .push ∧
    decodeAt Config.standard 65534 [0x05] = .extentOutOfRange .jmp ∧
    decodeAt Config.standard 65535 [0x03] = .extentOutOfRange .load ∧
    decodeAt Config.standard 65535 [0x0D] = .inst .stop 65536 := by decide

/-- The encoder on the same bytes (R94). -/
theorem test_encode :
    encode Config.standard (.push 305419896) = [0x01, 0x78, 0x56, 0x34, 0x12] ∧
    encode Config.standard (.load (-128)) = [0x03, 0x80] ∧ encode Config.standard (.store (-1)) = [0x04, 0xFF] ∧
    encode Config.standard (.jmp (-32768)) = [0x05, 0x00, 0x80] ∧ encode Config.standard (.jz 4660) = [0x06, 0x34, 0x12] ∧
    encode Config.standard (.jnz 16) = [0x07, 0x10, 0x00] ∧ encode tinyNarrow (.jnz 16) = [0x07, 0x10] ∧
    encode Config.standard .stop = [0x0D] := by decide

/-! One step each, sections 3 to 7 of the vectors. -/

theorem test_nop_V30 : nextIs (step (running Config.standard 4 [0x00] [1, 2]))
    (fun t => t.ip == 5 && State.values t == [1, 2]) = true := by decide
theorem test_nop_V31 : nextIs (step (running Config.standard 65535 [0x00] []))
    (fun t => t.ip == 65536 && t.status == .running &&
      nextIs (step t) (fun u => State.isFault u .invalidAddress 65536 65536)) = true := by decide

theorem test_push_V34 : nextIs (step (running Config.standard 0 [0x01, 0xFF, 0xFF, 0xFF, 0xFF] []))
    (fun t => t.ip == 5 && State.values t == [-1]) = true := by decide
/-- V140: the third PUSH on a stack of two. -/
theorem test_push_V140 :
    nextIs (step (running { tiny with maxInsts := 65536 } 10 [0x01, 0x03, 0x00, 0x00, 0x00] [1, 2]))
      (fun t => State.isFault t .resourceExhausted 10 0 && State.values t == [1, 2] && t.ip == 10) = true := by decide

theorem test_pop_V37 : nextIs (step (running Config.standard 7 [0x02] [4, 9]))
    (fun t => t.ip == 8 && State.values t == [4]) = true := by decide
theorem test_pop_V39 : nextIs (step (running Config.standard 7 [0x02] []))
    (fun t => State.isFault t .resourceUnderflow 7 0 && t.ip == 7) = true := by decide

theorem test_load_V42 :
    nextIs (step { running Config.standard 0 [0x03, 0x0F] [] with
        registers := List.replicate 15 0#32 ++ [BitVec.ofInt 32 (-9)] })
      (fun t => t.ip == 2 && State.values t == [-9]) = true := by decide
/-- V46 with a full stack of two: the index is checked before the stack. -/
theorem test_load_V46 :
    nextIs (step (running { Config.standard with stackSize := 2 } 0 [0x03, 0x10] [0, 0]))
      (fun t => State.isFault t .invalidRegister 0 16) = true := by decide

theorem test_store_V48 :
    nextIs (step { running Config.standard 0 [0x04, 0x02] [6, -4] with
        registers := [0#32, 0#32, 99#32] ++ List.replicate 13 0#32 })
      (fun t => t.ip == 2 && State.values t == [6] && (t.registers[2]?).map BitVec.toInt == some (-4)) = true := by decide
theorem test_store_V51 : nextIs (step (running Config.standard 0 [0x04, 0x80] []))
    (fun t => State.isFault t .invalidRegister 0 (-128)) = true := by decide

theorem test_jmp_V60 : nextIs (step (running Config.standard 26 [0x05, 0x07, 0x00] []))
    (fun t => t.ip == 7 && State.values t == []) = true := by decide
theorem test_jmp_V66 :
    nextIs (step (running { Config.standard with maxInsts := 100 } 0 [0x05, 0x64, 0x00] []))
      (fun t => State.isFault t .invalidAddress 0 100) = true ∧
    nextIs (step (running { Config.standard with maxInsts := 100 } 0 [0x05, 0x63, 0x00] []))
      (fun t => t.ip == 99) = true := by decide

theorem test_jz_V67_V69 :
    nextIs (step (running Config.standard 22 [0x06, 0x1E, 0x00] [0])) (fun t => t.ip == 30 && State.values t == [0]) = true ∧
    nextIs (step (running Config.standard 22 [0x06, 0x1E, 0x00] [0, -5]))
      (fun t => t.ip == 25 && State.values t == [0, -5]) = true := by decide
theorem test_jz_V71 : nextIs (step (running Config.standard 5 [0x06, 0xFF, 0xFF] [1]))
    (fun t => State.isFault t .invalidAddress 5 (-1) && t.ip == 5) = true := by decide

theorem test_jnz_V74 : nextIs (step (running Config.standard 36 [0x07, 0x10, 0x00] [-1]))
    (fun t => t.ip == 16 && State.values t == [-1]) = true := by decide
theorem test_jnz_V75 : nextIs (step (running Config.standard 36 [0x07, 0x10, 0x00] [0]))
    (fun t => t.ip == 39 && State.values t == [0]) = true := by decide

theorem test_add_V83 : nextIs (step (running Config.standard 0 [0x08] [2147483647, 1]))
    (fun t => t.ip == 1 && State.values t == [-2147483648]) = true := by decide
theorem test_add_V115 : nextIs (step (running Config.standard 0 [0x08] [100, 5, 3]))
    (fun t => State.values t == [100, 8]) = true := by decide

theorem test_sub_V87 : nextIs (step (running Config.standard 0 [0x09] [4, 10])) (fun t => State.values t == [-6]) = true := by
  decide
theorem test_sub_V89 : nextIs (step (running Config.standard 0 [0x09] [-2147483648, 1]))
    (fun t => State.values t == [2147483647]) = true := by decide

theorem test_mul_V96 : nextIs (step (running Config.standard 0 [0x0A] [46341, 46341]))
    (fun t => State.values t == [-2147479015]) = true := by decide
theorem test_mul_V97 : nextIs (step (running Config.standard 0 [0x0A] [-2147483648, -1]))
    (fun t => State.values t == [-2147483648]) = true := by decide

theorem test_div_V101_V107 :
    nextIs (step (running Config.standard 0 [0x0B] [-7, 2])) (fun t => t.ip == 1 && State.values t == [-3]) = true ∧
    nextIs (step (running Config.standard 0 [0x0B] [-2147483648, -1]))
      (fun t => State.values t == [-2147483648]) = true := by decide
theorem test_div_V112_V114 :
    nextIs (step (running Config.standard 3 [0x0B] [7, 0]))
      (fun t => State.isFault t .arithmeticFault 3 0 && State.values t == [7, 0]) = true ∧
    nextIs (step (running Config.standard 3 [0x0B] [0])) (fun t => State.isFault t .resourceUnderflow 3 0) = true := by decide

theorem test_print_V121 : nextIs (step { running Config.standard 0 [0x0C] [1, -3] with out := [5#32] })
    (fun t => State.values t == [1] && t.out.map BitVec.toInt == [5, -3]) = true := by decide
theorem test_print_V125 : nextIs (step (running Config.standard 0 [0x0C] []))
    (fun t => State.isFault t .resourceUnderflow 0 0 && t.out == []) = true := by decide

theorem test_stop_V127 : nextIs (step (running Config.standard 0 [0x0D] [1, 2, 3]))
    (fun t => t.ip == 1 && t.status == .halted && State.values t == [1, 2, 3]) = true := by decide
theorem test_stop_V128 : nextIs (step (running Config.standard 65535 [0x0D] []))
    (fun t => t.ip == 65536 && t.status == .halted && t.faultKind == none) = true := by decide

/-! The step's own faults, the host's events and the text, section 8 and V123, V124. -/

theorem test_unknown_V131 : nextIs (step (running Config.standard 6 [0xFF] []))
    (fun t => State.isFault t .invalidOpcode 6 255) = true := by decide
theorem test_extent_V132 : nextIs (step (running Config.standard 65532 [0x01] []))
    (fun t => State.isFault t .invalidAddress 65532 65536) = true := by decide
/-- V133's last step: a PUSH at 4 cut by the end of a buffer of eight bytes. -/
theorem test_extent_V133 : nextIs (step (running tiny 4 [0x01, 0x01, 0x00, 0x00] []))
    (fun t => State.isFault t .invalidAddress 4 8 && State.values t == []) = true := by decide

theorem test_loadFail_V135 :
    (hostEvent .loadFail State.reset).readStatus = { status := 3, faultKind := 6, faultPc := 0, faultInfo := 0 } := by decide
/-- V136 on a buffer of eight bytes: a program of nine. -/
theorem test_oversize_V136 :
    (hostEvent (.load (List.replicate 9 0x0D)) (State.resetOf tiny)).readStatus =
      { status := 3, faultKind := 6, faultPc := 0, faultInfo := 0 } := by decide
theorem test_start_V138 :
    hostEvent .start { State.reset with status := .halted } = { State.reset with status := .halted } := by decide
theorem test_reset_V139 :
    hostEvent .reset { running Config.standard 6 [0xFF] [1, 2, 3] with
      status := .faulted, faultKind := some .invalidOpcode, faultPc := 6, faultInfo := 255, out := [1#32, 2#32] } =
      State.reset := by decide

/-- LOAD and START, then S8's POP on an empty stack: the first instruction runs at address 0. -/
theorem test_launch_S8 : nextIs (step (launch [0x02] State.reset))
    (fun t => State.isFault t .resourceUnderflow 0 0 && t.out == []) = true := by decide

theorem test_text_V121 : renderOut [5#32, BitVec.ofInt 32 (-3)] = ['5', '\n', '-', '3', '\n'] := by decide
theorem test_text_V122 : renderWord 0#32 = ['0', '\n'] := by decide
theorem test_text_V123 : renderWord (BitVec.ofInt 32 (-2147483648)) =
    ['-', '2', '1', '4', '7', '4', '8', '3', '6', '4', '8', '\n'] := by decide

/-- The host's two definitions on one word: the decoder reads it, and the step after reset runs it. -/
theorem test_fetchWord : decodeTableWord 40 0x0000012C01 = some (.push 300) ∧
    nextIs (step (State.reset.withFetchWord 40 0x0000012C01)) (fun t => t.ip == 5 && State.values t == [300]) = true := by
  decide

/-! Witnesses: for each statement that has hypotheses, concrete states and operands that meet them, one clause after the
other, at the boundary of the clause's range. The states are of the small core unless a clause needs more room. -/

theorem tiny_legal : tiny.legal = true := by decide

theorem tinyNarrow_legal : tinyNarrow.legal = true := by decide

/-- A RUNNING state of the small core meets the invariant. -/
theorem witness_inv : (running tiny 0 [0x01, 0x05, 0x00, 0x00, 0x00] [3, 4]).Inv := by constructor <;> decide

/-- So do an IDLE and a FAULTED one. -/
theorem witness_inv_idle : (State.resetOf tiny).Inv := by constructor <;> decide
theorem witness_inv_faulted : ((running tiny 8 [] [3]).faultedWith .invalidAddress 8).Inv := by constructor <;> decide

theorem witness_ResetLeavesTheSpecifiedValues : State.reset = State.resetOf Config.standard ∧ 15 < Config.standard.nregs := by
  decide

theorem witness_ResetMeetsTheInvariant : Config.standard.legal = true ∧ tiny.legal = true ∧ tinyNarrow.legal = true := by
  decide

/-- A NOP at the last byte of the buffer. -/
theorem witness_NopOnlyAdvances :
    (running tiny 7 [0x00] []).status = .running ∧ (running tiny 7 [0x00] []).ip + 1 = tiny.maxInsts := by decide

/-- Room for exactly one word; no room; a PUSH at 4 of 8 bytes. -/
theorem witness_PushPushesItsImmediate :
    (running tiny 0 [] [1]).sp < tiny.stackSize ∧ tiny.stackSize ≤ (running tiny 0 [] [1, 2]).sp ∧
    (running tiny 4 [0x01] []).status = .running ∧ (running tiny 4 [0x01] []).ip < tiny.maxInsts ∧
    (running tiny 4 [0x01] []).opcodeAt 4 = some .push ∧ tiny.maxInsts < (running tiny 4 [0x01] []).ip + 5 := by decide

theorem witness_PopDropsTheTop :
    (∃ b rest, (running tiny 0 [] [7]).stack = b :: rest) ∧ (running tiny 0 [] []).sp = 0 := ⟨⟨_, _, rfl⟩, rfl⟩

/-- The highest register with room for one word; the indices on both sides of the bank; a full stack; a LOAD at 7 of 8. -/
theorem witness_LoadPushesTheRegister :
    (1 < tiny.nregs ∧ (running tiny 0 [] [5]).registers[1]? = some 0#32 ∧ (running tiny 0 [] [5]).sp < tiny.stackSize) ∧
    ((-1 : Int) < 0 ∧ (tiny.nregs : Int) ≤ 2) ∧
    ((0 : Int) ≤ 1 ∧ (1 : Int) < tiny.nregs ∧ tiny.stackSize ≤ (running tiny 0 [] [5, 6]).sp) ∧
    ((running tiny 7 [0x03] []).ip < tiny.maxInsts ∧ (running tiny 7 [0x03] []).opcodeAt 7 = some .load ∧
      tiny.maxInsts < (running tiny 7 [0x03] []).ip + 2) := by decide

theorem witness_StoreMovesTheTopToTheRegister :
    (1 < tiny.nregs ∧ (running tiny 0 [] [5]).registers.length = tiny.nregs ∧ (running tiny 0 [] [5]).stack = [5#32]) ∧
    ((-1 : Int) < 0 ∧ (tiny.nregs : Int) ≤ 2) ∧
    ((0 : Int) ≤ 1 ∧ (1 : Int) < tiny.nregs ∧ (running tiny 0 [] []).sp = 0) ∧
    ((running tiny 7 [0x04] []).ip < tiny.maxInsts ∧ (running tiny 7 [0x04] []).opcodeAt 7 = some .store ∧
      tiny.maxInsts < (running tiny 7 [0x04] []).ip + 2) := by decide

/-- The last address as a target; the targets on both sides of the buffer; a JMP at 6 of 8 bytes. -/
theorem witness_JmpSetsTheInstructionPointer :
    7 < tiny.maxInsts ∧ ((-1 : Int) < 0 ∧ (tiny.maxInsts : Int) ≤ 8) ∧
    ((running tiny 6 [0x05] []).status = .running ∧ (running tiny 6 [0x05] []).ip < tiny.maxInsts ∧
      (running tiny 6 [0x05] []).opcodeAt 6 = some .jmp ∧ tiny.maxInsts < (running tiny 6 [0x05] []).ip + 3) := by decide

/-- A top of 0 and a top of -1, with the last address as the target; targets outside; an empty stack; a JZ at 6 of 8. -/
theorem witness_JzJumpsOnZeroAndDoesNotPop :
    7 < tiny.maxInsts ∧
    ((running tiny 0 [] [0]).stack = [0#32] ∧ (0#32).toInt = 0) ∧
    ((running tiny 0 [] [-1]).stack = [BitVec.ofInt 32 (-1)] ∧ (BitVec.ofInt 32 (-1)).toInt ≠ 0) ∧
    ((-1 : Int) < 0 ∧ (tiny.maxInsts : Int) ≤ 8) ∧
    ((0 : Int) ≤ 7 ∧ (7 : Int) < tiny.maxInsts ∧ (running tiny 0 [] []).sp = 0) ∧
    ((running tiny 6 [0x06] []).ip < tiny.maxInsts ∧ (running tiny 6 [0x06] []).opcodeAt 6 = some .jz ∧
      tiny.maxInsts < (running tiny 6 [0x06] []).ip + 3) := by decide

/-- As for JZ, and the two lengths: cut at 6 of 8 with length 3, at 7 of 8 with length 2. -/
theorem witness_JnzJumpsOnNonzeroAndDoesNotPop :
    ((tiny.jnzW = .two) ∧ (tinyNarrow.jnzW = .one)) ∧
    ((running tiny 0 [] [-1]).stack = [BitVec.ofInt 32 (-1)] ∧ (BitVec.ofInt 32 (-1)).toInt ≠ 0) ∧
    ((running tiny 0 [] [0]).stack = [0#32] ∧ (0#32).toInt = 0) ∧
    ((7 : Nat) < tiny.maxInsts ∧ (-1 : Int) < 0 ∧ (tiny.maxInsts : Int) ≤ 8) ∧
    ((0 : Int) ≤ 7 ∧ (7 : Int) < tiny.maxInsts ∧ (running tiny 0 [] []).sp = 0) ∧
    ((running tiny 6 [0x07] []).opcodeAt 6 = some .jnz ∧ tiny.maxInsts < (running tiny 6 [0x07] []).ip + 3) ∧
    ((running tinyNarrow 7 [0x07] []).opcodeAt 7 = some .jnz ∧
      tinyNarrow.maxInsts < (running tinyNarrow 7 [0x07] []).ip + 2) := by decide

/-- Two live entries with a divisor that is not 0; one live entry, and none. -/
theorem witness_ArithmeticReplacesSecondAndPopsOnce :
    (running tiny 0 [] [7, 2]).stack = [2#32, 7#32] ∧ (2#32 : Word) ≠ 0#32 ∧
    (running tiny 0 [] [7]).sp < 2 ∧ (running tiny 0 [] []).sp < 2 := by decide

/-- The one pair that wraps, and the two signs of the exact quotient. -/
theorem witness_DivTruncatesTowardZero :
    ((BitVec.ofInt 32 (-2147483648)).toInt = -2147483648 ∧ (BitVec.ofInt 32 (-1)).toInt = -1 ∧
      (BitVec.ofInt 32 (-1)).toInt ≠ 0) ∧
    ((2#32).toInt ≠ 0 ∧ 0 ≤ (7#32).toInt * (2#32).toInt) ∧ ((BitVec.ofInt 32 (-7)).toInt * (2#32).toInt ≤ 0) := by decide

theorem witness_OnlyAZeroDivisorRaisesArithmeticFault :
    (running tiny 0 [] [7, 0]).stack = [0#32, 7#32] ∧ (running tiny 0 [] [7, 0]).faultKind ≠ some .arithmeticFault ∧
    ∃ t, exec .div (running tiny 0 [] [7, 0]) = .next t ∧ t.faultKind = some .arithmeticFault :=
  ⟨rfl, by decide, _, rfl, rfl⟩

theorem witness_PrintEmitsTheTopAndPops :
    (∃ b rest, (running tiny 0 [] [7]).stack = b :: rest) ∧ (running tiny 0 [] []).sp = 0 := ⟨⟨_, _, rfl⟩, rfl⟩

/-! The frames: each named instruction answers a next state that is no fatal condition, and one that is. -/

theorem witness_FrameOfNopStopAndJumps :
    (∃ t, exec .nop (running tiny 0 [] [0]) = .next t) ∧ (∃ t, exec .stop (running tiny 0 [] [0]) = .next t) ∧
    (∃ t, exec (.jmp 7) (running tiny 0 [] [0]) = .next t ∧ t.status = .running) ∧
    (∃ t, exec (.jz 7) (running tiny 0 [] [0]) = .next t ∧ t.status = .running) ∧
    (∃ t, exec (.jnz 7) (running tiny 0 [] [0]) = .next t ∧ t.status = .running) ∧
    (∃ t, exec (.jnz 8) (running tiny 0 [] [0]) = .next t ∧ t.status = .faulted) :=
  ⟨⟨_, rfl⟩, ⟨_, rfl⟩, ⟨_, rfl, rfl⟩, ⟨_, rfl, rfl⟩, ⟨_, rfl, rfl⟩, ⟨_, rfl, rfl⟩⟩

theorem witness_FrameOfPushAndLoad :
    (∃ t, exec (.push (-1)) (running tiny 0 [] [0]) = .next t ∧ t.status = .running) ∧
    (∃ t, exec (.load 1) (running tiny 0 [] [0]) = .next t ∧ t.status = .running) ∧
    (∃ t, exec (.load 2) (running tiny 0 [] [0]) = .next t ∧ t.status = .faulted) :=
  ⟨⟨_, rfl, rfl⟩, ⟨_, rfl, rfl⟩, ⟨_, rfl, rfl⟩⟩

theorem witness_FrameOfPopStoreAndPrint :
    (∃ t, exec .pop (running tiny 0 [] [0]) = .next t ∧ t.status = .running) ∧
    (∃ t, exec (.store 1) (running tiny 0 [] [0]) = .next t ∧ t.status = .running) ∧
    (∃ t, exec .print (running tiny 0 [] [0]) = .next t ∧ t.status = .running) ∧
    (∃ t, exec .print (running tiny 0 [] []) = .next t ∧ t.status = .faulted) :=
  ⟨⟨_, rfl, rfl⟩, ⟨_, rfl, rfl⟩, ⟨_, rfl, rfl⟩, ⟨_, rfl, rfl⟩⟩

theorem witness_FrameOfArithmetic :
    (∃ t, exec .add (running tiny 0 [] [7, 2]) = .next t ∧ t.status = .running) ∧
    (∃ t, exec .sub (running tiny 0 [] [7, 2]) = .next t ∧ t.status = .running) ∧
    (∃ t, exec .mul (running tiny 0 [] [7, 2]) = .next t ∧ t.status = .running) ∧
    (∃ t, exec .div (running tiny 0 [] [7, 2]) = .next t ∧ t.status = .running) ∧
    (∃ t, exec .div (running tiny 0 [] [7, 0]) = .next t ∧ t.status = .faulted) :=
  ⟨⟨_, rfl, rfl⟩, ⟨_, rfl, rfl⟩, ⟨_, rfl, rfl⟩, ⟨_, rfl, rfl⟩, ⟨_, rfl, rfl⟩⟩

theorem witness_OnlyStoreChangesARegister :
    ∃ t, step (running tiny 0 [0x04, 0x01] [5]) = .next t ∧
      decide (t.registers[1]? ≠ (running tiny 0 [0x04, 0x01] [5]).registers[1]?) = true :=
  nextIs_spec (by decide)

theorem witness_OnlyPrintChangesTheOutput :
    ∃ t, step (running tiny 0 [0x0C] [5]) = .next t ∧ decide (t.out ≠ (running tiny 0 [0x0C] [5]).out) = true :=
  nextIs_spec (by decide)

/-- A step, a run of two turns, and an event outside IDLE that is no RESET. -/
theorem witness_InstructionSpaceIsReadOnlyDuringARun :
    (∃ t, step (running tiny 0 [0x0C] [5]) = .next t ∧ (t.sp == 0) = true) ∧
    (∃ t, runLoop 2 (running tiny 0 [0x0C, 0x0D] [5]) = .next t ∧ (t.status == .halted) = true) ∧
    (running tiny 0 [0x0D] []).status ≠ .idle ∧ (HostEvent.load [0x0D]) ≠ .reset :=
  ⟨nextIs_spec (by decide), nextIs_spec (by decide), by decide, by decide⟩

/-! The step. -/

/-- A PUSH that ends at the last byte of the buffer. -/
theorem witness_StepRunsTheDecodedInstruction :
    (running tiny 3 [0x01, 0x05, 0x00, 0x00, 0x00] []).status = .running ∧
    (running tiny 3 [0x01, 0x05, 0x00, 0x00, 0x00] []).decodeHere = .inst (.push 5) 8 := by decide

theorem witness_FetchBeyondTheBufferIsInvalidAddress :
    (running tiny 8 [] []).status = .running ∧ tiny.maxInsts ≤ (running tiny 8 [] []).ip := by decide

/-- The lowest byte that is no opcode, and the highest opcode. -/
theorem witness_UnrecognisedOpcodeIsInvalidOpcode :
    (Memory.read (running tiny 7 [0x0E] []).instructions 7 = 0x0E#8 ∧ (running tiny 7 [0x0E] []).ip < tiny.maxInsts ∧
      ∀ m ∈ Mnemonic.all, tiny.opc.byte m ≠ 0x0E#8) ∧
    (Memory.read (running tiny 7 [0x0D] []).instructions 7 = 0x0D#8 ∧ tiny.opc.byte .stop = 0x0D#8) := by decide

theorem witness_CutInstructionIsInvalidAddress :
    (running tiny 4 [0x01] []).status = .running ∧ (running tiny 4 [0x01] []).ip < tiny.maxInsts ∧
    (running tiny 4 [0x01] []).opcodeAt 4 = some .push ∧ tiny.maxInsts < 4 + 1 + Mnemonic.width tiny .push := by decide

theorem witness_NoStepOutsideRunning :
    (State.resetOf tiny).status ≠ .running ∧ (running tiny 0 [] []).halt.status ≠ .running ∧
    ((running tiny 0 [] []).faultedWith .invalidOpcode 14).status ≠ .running := by decide

/-- A step that ends FAULTED, from a state that meets the invariant: the premises of four statements. -/
theorem faulting_step : (running tiny 0 [0x0B] [7, 0]).Inv ∧ (running tiny 0 [0x0B] [7, 0]).status = .running ∧
    ∃ t, step (running tiny 0 [0x0B] [7, 0]) = .next t ∧ (t.status == .faulted) = true :=
  ⟨by constructor <;> decide, rfl, nextIs_spec (by decide)⟩

theorem witness_RaisingWritesOnlyStatusAndRecord :
    ∃ s t : State, s.status = .running ∧ step s = .next t ∧ t.status = .faulted :=
  let ⟨_, h1, t, h2, h3⟩ := faulting_step
  ⟨_, t, h1, h2, by simpa using h3⟩

/-- A step that ends FAULTED, and a run of two turns that does: S8's fault after a PRINT. -/
theorem witness_FatalConditionsArePrecise :
    (∃ s t : State, s.status = .running ∧ step s = .next t ∧ t.status = .faulted) ∧
    (running tiny 0 [0x0C, 0x02] [5]).status = .running ∧
    ∃ t, runLoop 2 (running tiny 0 [0x0C, 0x02] [5]) = .next t ∧
      (State.isFault t .resourceUnderflow 1 0 && t.out == [5#32]) = true :=
  ⟨witness_RaisingWritesOnlyStatusAndRecord, rfl, nextIs_spec (by decide)⟩

theorem witness_FaultRecordFitsItsCause :
    ∃ s t : State, s.Inv ∧ s.status = .running ∧ step s = .next t ∧ t.status = .faulted :=
  let ⟨h0, h1, t, h2, h3⟩ := faulting_step
  ⟨_, t, h0, h1, h2, by simpa using h3⟩

/-- A next state for each outcome: commit, HALTED, FAULTED. -/
theorem witness_EveryRunningStateHasOneSuccessor :
    (running tiny 0 [0x00] []).status = .running ∧ (running tiny 0 [0x0D] []).status = .running ∧
    (running tiny 0 [0xFF] []).status = .running := by decide

/-- A state with a first row, and one with none. -/
theorem witness_StepRaisesTheFirstConditionOfTheTable :
    firstFatal (running tiny 0 [0x03, 0x10] [0, 0]) = some { holds := true, kind := .invalidRegister, info := 16 } ∧
    firstFatal (running tiny 0 [0x03, 0x01] [0]) = none ∧
    (running tiny 0 [0x03, 0x01] [0]).status = .running := by decide

theorem witness_OnlyStopHalts :
    ∃ t, step (running tiny 7 [0x0D] []) = .next t ∧ (t.status == .halted) = true := nextIs_spec (by decide)

/-- A jump to the last address a target can name, in a buffer that goes beyond it; and a bank of 129 registers, whose last
an instruction cannot name. -/
theorem witness_ImmediateRangesBoundTargetsAndRegisters :
    (∃ t, step (running Config.standard 0 [0x05, 0xFF, 0x7F] []) = .next t ∧
      (t.status == .running && t.ip == 32767) = true) ∧
    (∃ t, step (running { tiny with nregs := 129 } 0 [0x04, 0x7F] [5]) = .next t ∧
      (t.registers[127]? == some 5#32 && t.registers[128]? == some 0#32) = true) :=
  ⟨nextIs_spec (by decide), nextIs_spec (by decide)⟩

/-! The invariant. -/

theorem witness_StepKeepsTheInvariant : ∃ s t : State, s.Inv ∧ step s = .next t ∧ t.status = .running :=
  let ⟨t, h1, h2⟩ := nextIs_spec (r := step (running tiny 0 [0x0C] [3, 4])) (p := fun t => t.status == .running) (by decide)
  ⟨_, t, by constructor <;> decide, h1, by simpa using h2⟩

theorem witness_HostEventsKeepTheInvariant : (State.resetOf tiny).Inv := witness_inv_idle

theorem witness_EverySessionFromResetMeetsTheInvariant : tiny.legal = true := tiny_legal

/-- The three causes of InvalidAddress: the fetch bound, the extent check, a jump target. -/
theorem witness_InvalidAddressCausesAreToldApart :
    (∃ t, step (running tiny 8 [] []) = .next t ∧ State.isFault t .invalidAddress 8 8 = true) ∧
    (∃ t, step (running tiny 6 [0x05] []) = .next t ∧ State.isFault t .invalidAddress 6 8 = true) ∧
    (∃ t, step (running tiny 5 [0x05, 0x08, 0x00] []) = .next t ∧ State.isFault t .invalidAddress 5 8 = true) :=
  ⟨nextIs_spec (by decide), nextIs_spec (by decide), nextIs_spec (by decide)⟩

/-! The encoding. -/

/-- The bytes of an instruction, written where they stand, are `BytesAt` there. -/
theorem bytesAt_jump : BytesAt (Memory.writeBytes [] 5 [0x05, 0x05]) 5 (encode tiny (.jmp 5)) := by
  intro k b h
  match k with
  | 0 => cases h; decide
  | 1 => cases h; decide
  | 2 => cases h; decide
  | _ + 3 => simp [encode, Instr.operand, Instr.mnemonic, Mnemonic.width, Mnemonic.format, Format.width, leBytes] at h

/-- A JMP in the last three bytes of the buffer; its high byte is the 0x00 that reset leaves. -/
theorem witness_DecodeOfEncodeIsTheInstruction :
    tiny.legal = true ∧ (Instr.jmp 5).wellFormed tiny = true ∧ 5 + (encode tiny (.jmp 5)).length ≤ tiny.maxInsts ∧
    BytesAt (Memory.writeBytes [] 5 [0x05, 0x05]) 5 (encode tiny (.jmp 5)) :=
  ⟨by decide, by decide, by decide, bytesAt_jump⟩

theorem witness_EncodeOfDecodeIsTheBytes : decodeAt tiny 5 [0x05, 0x05, 0x00] = .inst (.jmp 5) 8 := by decide

theorem witness_ImmediateWidthsAreFixedPerOpcode : tiny.jnzW = .two ∧ tinyNarrow.jnzW = .one := by decide

/-- Widths 0, 1, 2 and 4. -/
theorem witness_ImmediatesAreLittleEndianTwosComplement :
    decodeAt tiny 0 [0x08] = .inst .add 1 ∧ decodeAt tiny 0 [0x03, 0x80] = .inst (.load (-128)) 2 ∧
    decodeAt tiny 0 [0x05, 0x00, 0x80] = .inst (.jmp (-32768)) 3 ∧
    decodeAt tiny 0 [0x01, 0x78, 0x56, 0x34, 0x12] = .inst (.push 305419896) 5 := by decide

/-- The lowest byte that is negative, for each of the four instructions. -/
theorem witness_NegativeIndexOrTargetFaults :
    ((running tiny 6 [0x03, 0x80] []).opcodeAt 6 = some .load ∧ 6 + 1 + Mnemonic.width tiny .load ≤ tiny.maxInsts ∧
      0x80 ≤ (Memory.read (running tiny 6 [0x03, 0x80] []).instructions 7).toNat) ∧
    (running tiny 6 [0x04, 0x80] []).opcodeAt 6 = some .store ∧
    ((running tiny 5 [0x05, 0x00, 0x80] []).opcodeAt 5 = some .jmp ∧ 5 + 1 + Mnemonic.width tiny .jmp ≤ tiny.maxInsts ∧
      0x80 ≤ (Memory.read (running tiny 5 [0x05, 0x00, 0x80] []).instructions 7).toNat) ∧
    (running tiny 5 [0x06, 0x00, 0x80] []).opcodeAt 5 = some .jz := by decide

/-- The lowest byte that is no opcode at the last address, beside the highest that is one. -/
theorem witness_DefaultOpcodesAreZeroToThirteen :
    65535 < 65536 ∧ 0x0E ≤ (Memory.read (Memory.writeBytes [] 65535 [0x0E]) 65535).toNat ∧
    ¬0x0E ≤ (Memory.read (Memory.writeBytes [] 65535 [0x0D]) 65535).toNat := by decide

/-! The host's events. -/

theorem witness_StartBeginsARunAtAddressZero :
    (State.resetOf tiny).status = .idle ∧ (running tiny 0 [] []).halt.status ≠ .idle := by decide

/-- A program of no bytes and one that fills the buffer. -/
theorem witness_LoadInstallsTheBytesExactly :
    (State.resetOf tiny).Inv ∧ (State.resetOf tiny).status = .idle ∧ ([] : List Byte).length ≤ tiny.maxInsts ∧
    (List.replicate 8 0x0D#8).length ≤ tiny.maxInsts := ⟨witness_inv_idle, rfl, by decide, by decide⟩

/-- A program one byte too long. -/
theorem witness_FailedLoadIsProgramLoadFailure :
    (State.resetOf tiny).status = .idle ∧ tiny.maxInsts < (List.replicate 9 0x0D#8).length := by decide

theorem witness_OnlyResetActsOutsideIdle :
    HostEvent.start ≠ .reset ∧ (running tiny 0 [] []).status ≠ .idle := by decide

theorem witness_SecondLoadBeforeStartIsRefused :
    (List.replicate 8 0x0D#8).length ≤ tiny.maxInsts := by decide

theorem witness_HostReadsTheFinalStateOnlyAfterTheEnd :
    (running tiny 0 [] []).status = .running ∧ (State.resetOf tiny).status = .idle ∧
    (running tiny 0 [] []).halt.status = .halted ∧
    ((running tiny 0 [] []).faultedWith .invalidOpcode 14).status = .faulted := by decide

/-! Whole runs. -/

/-- Two cores of one configuration with different pasts. -/
theorem witness_FreshRunsOfAProgramAreIdentical :
    (running tiny 0 [0x0C] [1]).cfg = (State.resetOf tiny).cfg ∧ running tiny 0 [0x0C] [1] ≠ State.resetOf tiny := by decide

/-- A run that has ended after two turns, and more turns. -/
theorem witness_EndedRunsStayEnded :
    (∃ t, runLoop 2 (running tiny 0 [0x0C, 0x0D] [5]) = .next t ∧ t.ended = true) ∧ 2 ≤ 3 :=
  ⟨nextIs_spec (by decide), by decide⟩

theorem witness_OutputOnlyGrows :
    ∃ t, runLoop 2 (running tiny 0 [0x0C, 0x0D] [5]) = .next t ∧ (t.out == [5#32]) = true := nextIs_spec (by decide)

/-- Two NOPs before the end, and none. -/
theorem witness_FallingOffTheProgramEndsInInvalidAddress :
    (running tiny 6 [] []).status = .running ∧ tiny.legal = true ∧ tiny.opc.nop = 0x00#8 ∧
    (running tiny 6 [] []).ip + 2 = tiny.maxInsts ∧ (running tiny 8 [] []).ip + 0 = tiny.maxInsts ∧
    ∀ a, Memory.read (running tiny 6 [] []).instructions a = 0x00#8 :=
  ⟨rfl, by decide, rfl, rfl, rfl, fun _ => rfl⟩

/-- A jump to itself in the last three bytes of the buffer. -/
theorem witness_JumpToItselfNeverEnds :
    (running tiny 5 [0x05, 0x05] []).status = .running ∧ tiny.legal = true ∧ (running tiny 5 [0x05, 0x05] []).ip < 32768 ∧
    (running tiny 5 [0x05, 0x05] []).ip + 3 ≤ tiny.maxInsts ∧
    BytesAt (running tiny 5 [0x05, 0x05] []).instructions 5 (encode tiny (.jmp 5)) :=
  ⟨rfl, by decide, by decide, by decide, bytesAt_jump⟩

/-- Room for exactly one word. -/
theorem witness_PushThenPopRestoresTheStack : (running tiny 0 [] [1]).sp < tiny.stackSize := by decide

/-- The highest register and a full stack. -/
theorem witness_StoreThenLoadYieldsTheStoredValue :
    (running tiny 0 [] [3, 4]).Inv ∧ 1 < tiny.nregs ∧ (running tiny 0 [] [3, 4]).stack = [4#32, 3#32] :=
  ⟨by constructor <;> decide, by decide, rfl⟩

end Sys2Proof.Tests
end

/-! PROOF. The launch and what it forgets (spec/00_scope.md R11; 70_reset_and_hazards.md R230, R235). -/

namespace Sys2Proof.Machine

/-- RESET in any status answers the reset state of the core's configuration: nothing else of `s` is read (R230). -/
theorem hostEvent_reset (s : State) : hostEvent .reset s = State.resetOf s.cfg := rfl

/-- Of the core it starts from, a launch reads only the configuration, since it begins with RESET (R235). -/
theorem launch_eq_of_cfg_eq {s t : State} (prog : List Byte) (hcfg : s.cfg = t.cfg) :
    launch prog s = launch prog t := by
  have hreset : hostEvent .reset s = hostEvent .reset t := by rw [hostEvent_reset, hostEvent_reset, hcfg]
  unfold launch
  rw [hreset]

/-- Settles O53: two launches of one program reach one state, and the loop is a function of that state. -/
theorem freshRunsOfAProgramAreIdentical : Obligations.FreshRunsOfAProgramAreIdentical := by
  intro s t prog k hcfg
  rw [launch_eq_of_cfg_eq prog hcfg]

end Sys2Proof.Machine

/-! PROOF. The instruction space is read-only during a run (spec/20_memory.md R64). -/

namespace Sys2Proof.Machine

/-- No instruction writes the instruction space, and neither does the taking of a fatal condition (R64, R118). -/
theorem step_instructions {s t : State} (h : step s = .next t) : t.instructions = s.instructions := by
  obtain ⟨k, info, rfl⟩ | ⟨i, next, _, _, hcommit⟩ := step_effect h
  · exact State.faultedWith_instructions k info s
  · exact hcommit.instructions

theorem runLoop_instructions (k : Nat) (s t : State) (h : runLoop k s = .next t) : t.instructions = s.instructions :=
  runLoop_induction (P := fun s t => t.instructions = s.instructions) (fun _ => rfl)
    (fun _ _ _ hstep hrest => hrest.trans (step_instructions hstep)) k s t h

/-- Outside IDLE every event but RESET is ignored: it leaves the whole state as it was (R236). -/
theorem hostEvent_ignored {e : HostEvent} {s : State} (hstatus : s.status ≠ .idle) (he : e ≠ .reset) :
    hostEvent e s = s := by
  cases e with
  | reset => exact absurd rfl he
  | load prog => exact whenIdle_other (State.install prog) hstatus
  | loadFail => exact whenIdle_other State.loadFailed hstatus
  | start => exact whenIdle_other State.started hstatus

/-- START leaves the loaded program as it is, in IDLE and outside it (R231, R236). -/
theorem hostEvent_start_instructions (s : State) : (hostEvent .start s).instructions = s.instructions := by
  by_cases hidle : s.status = .idle
  · have hstart : hostEvent .start s = s.started := whenIdle_idle State.started hidle
    rw [hstart, State.started_instructions]
  · rw [hostEvent_ignored hidle (by decide)]

/-- Settles O23: every step is a commit or a fatal condition, neither of which touches the buffer, and so for runs by
induction; outside IDLE the host's events are ignored. -/
theorem instructionSpaceIsReadOnlyDuringARun : Obligations.InstructionSpaceIsReadOnlyDuringARun :=
  ⟨fun _ _ => step_instructions, runLoop_instructions,
    fun _ _ hstatus he => congrArg State.instructions (hostEvent_ignored hstatus he), hostEvent_start_instructions⟩

end Sys2Proof.Machine

/-! PROOF. The immediates of the instructions: their widths and their values (spec/30_encoding.md R82, R83). -/

namespace Sys2Proof

/-- The recursion of `readLE` is the sum of bytes weighted by powers of 256 (R52). -/
theorem Memory.readLE_eq_sum (buf : Memory) (a w : Nat) :
    buf.readLE a w = ((List.range w).map fun k => (Memory.read buf (a + k)).toNat * 256 ^ k).sum := by
  induction w generalizing a with
  | zero => rfl
  | succ w ih =>
    have hshift : ((List.range w).map fun k => (Memory.read buf (a + (k + 1))).toNat * 256 ^ (k + 1)).sum =
        256 * buf.readLE (a + 1) w := by
      rw [ih, ← List.sum_map_mul_left]
      refine congrArg List.sum (List.map_congr_left fun k _ => ?_)
      rw [Nat.add_right_comm a 1 k, Nat.add_assoc, pow_succ', Nat.mul_left_comm]
    simp only [Memory.readLE, List.range_succ_eq_map, List.map_cons, List.map_map, List.sum_cons, Function.comp_def,
      Nat.succ_eq_add_one, Nat.add_zero, pow_zero, Nat.mul_one, hshift]

/-- An instruction built from its mnemonic has an operand exactly where the mnemonic has an immediate (R80, R82). -/
theorem Instr.build_operand (c : Config) (m : Mnemonic) (imm : Int) :
    (Instr.build m imm).operand = if m.width c = 0 then none else some imm := by
  cases m with
  | jnz => exact (if_neg (Mnemonic.width_jnz c).1.ne').symm
  | _ => rfl

theorem Mnemonic.width_jnz_of_two {c : Config} (h : c.jnzW = .two) : Mnemonic.width c .jnz = 2 := by
  simp [Mnemonic.width, Mnemonic.format, h, Format.width]

theorem Mnemonic.width_jnz_of_one {c : Config} (h : c.jnzW = .one) : Mnemonic.width c .jnz = 1 := by
  simp [Mnemonic.width, Mnemonic.format, h, Format.width]

/-- A decoded instruction's operand is the immediate of its own mnemonic at the address it was fetched from. -/
theorem decode_inst_operand {c : Config} {buf : Memory} {pc0 next : Nat} {i : Instr}
    (h : decode c buf pc0 = .inst i next) :
    i.operand = if i.mnemonic.width c = 0 then none else some (immediateAt c buf pc0 i.mnemonic) := by
  obtain ⟨m, _, _, _, rfl, _⟩ := decode_inst h
  rw [Instr.build_mnemonic, Instr.build_operand c]

end Sys2Proof

namespace Sys2Proof.Machine

/-- Settles O43: the operand is `immediateAt` of the instruction's mnemonic, whose range and residue `immediateAt_spec`
gives, and `readLE` is the weighted sum of the bytes. -/
theorem immediatesAreLittleEndianTwosComplement : Obligations.ImmediatesAreLittleEndianTwosComplement := by
  intro c buf pc0 next i w u hdecode hw hu
  have hoperand := decode_inst_operand hdecode
  rw [← hw] at hoperand
  refine ⟨fun hzero => by rw [hoperand, if_pos hzero], fun hpos => ?_⟩
  obtain ⟨hlow, hhigh, hresidue⟩ := immediateAt_spec buf pc0 hw.symm hpos
  refine ⟨immediateAt c buf pc0 i.mnemonic, by rw [hoperand, if_neg hpos.ne'], ?_, hlow, hhigh⟩
  rw [hu, ← Memory.readLE_eq_sum, ← hresidue, pow_mul]
  norm_num

/-- Settles O42: each row of the table is the width of the mnemonic's format; only JNZ's format depends on the
configuration. -/
theorem immediateWidthsAreFixedPerOpcode : Obligations.ImmediateWidthsAreFixedPerOpcode :=
  fun _ => ⟨rfl, rfl, rfl, rfl, rfl, rfl, rfl, Mnemonic.width_jnz_of_two, Mnemonic.width_jnz_of_one,
    rfl, rfl, rfl, rfl, rfl, rfl⟩

end Sys2Proof.Machine

/-! PROOF. The opcode phase of the step, and the statuses in which no step is taken (spec/40_execution_step.md R112,
R120). -/

namespace Sys2Proof.Machine

/-- A byte outside the image of `OPC` ends the step in its second phase (R112). -/
theorem step_unknown_opcode {s : State} (hrun : s.status = .running) (hbound : s.ip < s.cfg.maxInsts)
    (hbyte : ∀ m, s.cfg.opc.byte m ≠ Memory.read s.instructions s.ip) :
    step s = .next (s.faultedWith .invalidOpcode (Memory.read s.instructions s.ip).toNat) := by
  have hdecode : s.decodeHere = .unknown (Memory.read s.instructions s.ip) :=
    decode_of_unknown hbound (OpcodeMap.mnemonicOf_none.mpr hbyte)
  rw [step_running hrun, hdecode]
  rfl

/-- Settles O26: a byte outside the image of `OPC` has no mnemonic, so the decoder answers `unknown`; a legal `OPC` is
injective, so its inverse answers the one mnemonic with the byte. -/
theorem unrecognisedOpcodeIsInvalidOpcode : Obligations.UnrecognisedOpcodeIsInvalidOpcode := by
  rintro s _ rfl
  refine ⟨step_unknown_opcode, fun hlegal m hm => ⟨?_, fun m' hm' => ?_⟩⟩
  · rw [State.opcodeAt, ← hm]
    exact Config.mnemonicOf_byte hlegal m
  · exact Config.byte_injective hlegal (hm'.trans hm.symm)

/-- Outside RUNNING every turn of the loop leaves the state as it is (R120). -/
theorem runLoop_stopped {s : State} (hstatus : s.status ≠ .running) (k : Nat) : runLoop k s = .next s := by
  induction k with
  | zero => rfl
  | succ k ih => rw [runLoop_succ_of_tick (tick_stopped hstatus), ih]

/-- Settles O28: outside RUNNING the step answers no next state, and the loop, whose turn there is idle, stays by
induction on the turns. -/
theorem noStepOutsideRunning : Obligations.NoStepOutsideRunning :=
  fun _ hstatus => ⟨step_stops hstatus, runLoop_stopped hstatus⟩

end Sys2Proof.Machine

/-! PROOF. The stack operations NOP, PUSH and POP (spec/41_stack_ops.md), with the bytes of an instruction
(spec/30_encoding.md R94) and the two steps that run into the end of the buffer (spec/40_execution_step.md R111, R113). -/

namespace Sys2Proof

theorem encode_of_no_operand (c : Config) {i : Instr} (h : i.operand = none) : encode c i = [c.opc.byte i.mnemonic] := by
  rw [encode, h]

theorem encode_of_operand (c : Config) {i : Instr} {v : Int} (h : i.operand = some v) :
    encode c i = c.opc.byte i.mnemonic :: leBytes (i.mnemonic.width c) v := by
  rw [encode, h]

/-- The bytes of a field of format W; the repeated division by 256 is a division by its powers. -/
theorem leBytes_four (v : Int) :
    leBytes 4 v = [BitVec.ofInt 8 v, BitVec.ofInt 8 (v / 256), BitVec.ofInt 8 (v / 65536),
      BitVec.ofInt 8 (v / 16777216)] := by
  have h2 : v / 256 / 256 = v / 65536 := by omega
  have h3 : v / 65536 / 256 = v / 16777216 := by omega
  simp only [leBytes, h2, h3]

end Sys2Proof

namespace Sys2Proof.Machine

/-- Beyond the buffer the step ends in its first phase (R111). -/
theorem step_beyond_buffer {s : State} (hrun : s.status = .running) (hbeyond : s.cfg.maxInsts ≤ s.ip) :
    step s = .next (s.faultedWith .invalidAddress s.ip) := by
  have hdecode : s.decodeHere = .fetchOutOfRange := decode_of_beyond hbeyond
  rw [step_running hrun, hdecode]
  rfl

/-- An instruction that the end of the buffer cuts ends the step in its third phase (R113). -/
theorem step_cut_instruction {s : State} {m : Mnemonic} (hrun : s.status = .running) (hbound : s.ip < s.cfg.maxInsts)
    (hopcode : s.opcodeAt s.ip = some m) (hcut : s.cfg.maxInsts < s.ip + m.len s.cfg) :
    step s = .next (s.faultedWith .invalidAddress (s.ip + m.width s.cfg : Nat)) := by
  have hdecode : s.decodeHere = .extentOutOfRange m := decode_of_cut hbound hopcode hcut
  rw [step_running hrun, hdecode]
  rfl

/-- Settles O3: NOP has no operand and no check; a NOP at the last byte leaves the instruction pointer beyond the buffer. -/
theorem nopOnlyAdvances : Obligations.NopOnlyAdvances := by
  intro s
  refine ⟨encode_of_no_operand s.cfg rfl, exec_nop, fun hrun hlast => ?_⟩
  exact ⟨_, step_beyond_buffer hrun hlast.ge⟩

/-- Settles O4: PUSH's one check is the room on the stack, which decides between its commit and ResourceExhausted; its
extent is checked before, by the step. -/
theorem pushPushesItsImmediate : Obligations.PushPushesItsImmediate := by
  intro n s
  refine ⟨?_, fun hroom => ?_, fun hfull => ?_, fun hrun hbound hopcode hcut => ?_⟩
  · rw [← leBytes_four]
    exact encode_of_operand s.cfg rfl
  · rw [exec_push, needRoom_pass _ hroom]
    rfl
  · rw [exec_push, needRoom_fail _ hfull.not_gt]
  · exact ⟨_, step_cut_instruction hrun hbound hopcode hcut⟩

/-- Settles O5: POP's one check is the depth of the stack, which decides between its commit and ResourceUnderflow. -/
theorem popDropsTheTop : Obligations.PopDropsTheTop := by
  intro s
  refine ⟨encode_of_no_operand s.cfg rfl, fun b rest hstack => ?_, fun hempty => ?_⟩
  · rw [exec_pop, needTop_pass _ hstack, State.pop, hstack]
    rfl
  · rw [exec_pop, needTop_fail _ (List.length_eq_zero_iff.mp hempty)]

end Sys2Proof.Machine

/-! PROOF. The register operation STORE (spec/42_register_ops.md R141). -/

namespace Sys2Proof.Machine

/-- With both checks of STORE passed, the top is in the register and no longer on the stack (R141). -/
theorem exec_store_commit {s : State} {i : Nat} {b : Word} {rest : List Word} (hi : i < s.cfg.nregs)
    (hstack : s.stack = b :: rest) :
    exec (.store i) s = .next { s with registers := s.registers.set i b, stack := rest, ip := s.ip + 2 } := by
  have hindex : (0 : Int) ≤ i ∧ (i : Int) < s.cfg.nregs := by omega
  rw [exec_store, needRegister_pass _ hindex, needTop_pass _ hstack, State.pop, State.writeReg_stack, hstack]
  rfl

/-- Settles O7: STORE checks the index before the depth, and what it commits is `List.set` on the bank, which changes the
one register; its extent is checked before, by the step. -/
theorem storeMovesTheTopToTheRegister : Obligations.StoreMovesTheTopToTheRegister := by
  intro r s
  refine ⟨encode_of_operand s.cfg rfl, ?_, fun houtside => ?_, fun hinside hempty => ?_,
    fun hrun hbound hopcode hcut => ?_⟩
  · rintro i b rest rfl hi hlen hstack
    refine ⟨s.registers.set i b, exec_store_commit hi hstack, List.length_set, ?_, fun j hj => ?_⟩
    · exact List.getElem?_set_self (hlen ▸ hi)
    · exact List.getElem?_set_ne hj.symm
  · rw [exec_store, needRegister_fail _ (by omega)]
  · rw [exec_store, needRegister_pass _ hinside, needTop_fail _ (List.length_eq_zero_iff.mp hempty)]
  · exact ⟨_, step_cut_instruction hrun hbound hopcode hcut⟩

end Sys2Proof.Machine

/-! PROOF. The unconditional jump JMP (spec/43_control_transfer.md R150). -/

namespace Sys2Proof.Machine

/-- A target inside the buffer passes JMP's one check and becomes the instruction pointer (R150). -/
theorem exec_jmp_commit {s : State} {i : Nat} (hi : i < s.cfg.maxInsts) :
    exec (.jmp i) s = .next { s with ip := i } := by
  have htarget : (0 : Int) ≤ i ∧ (i : Int) < s.cfg.maxInsts := by omega
  rw [exec_jmp, needTarget_pass _ htarget]
  rfl

/-- A target outside the buffer raises InvalidAddress with the target as its information (R150, R195). -/
theorem exec_jmp_fault {s : State} {a : Int} (houtside : a < 0 ∨ s.cfg.maxInsts ≤ a) :
    exec (.jmp a) s = .next (s.faultedWith .invalidAddress a) := by
  rw [exec_jmp, needTarget_fail _ (by omega)]

/-- Settles O8: JMP's one check is the range of the target, which decides between its commit and InvalidAddress; its
extent is checked before, by the step. -/
theorem jmpSetsTheInstructionPointer : Obligations.JmpSetsTheInstructionPointer := by
  intro a s
  refine ⟨encode_of_operand s.cfg rfl, ?_, exec_jmp_fault, fun hrun hbound hopcode hcut => ?_⟩
  · rintro i rfl hi
    exact exec_jmp_commit hi
  · exact ⟨_, step_cut_instruction hrun hbound hopcode hcut⟩

end Sys2Proof.Machine

/-! PROOF. The arithmetic instructions ADD, SUB, MUL and DIV (spec/44_alu.md R160). -/

namespace Sys2Proof.Machine

/-- Over two live entries `SetSecond(r); Pop()` leaves `r` where the second stood; what lies below is as it was (R160). -/
theorem State.replaceTwo_eq {s : State} {m : Mnemonic} {a b : Word} {rest : List Word} (r : Word)
    (hlen : m.len s.cfg = 1) (hstack : s.stack = b :: a :: rest) :
    s.replaceTwo m r = { s with stack := r :: rest, ip := s.ip + 1 } := by
  have hreplaced : (s.setSecond r).pop = { s with stack := r :: rest } := by
    rw [State.pop, State.setSecond, hstack]
    rfl
  rw [State.replaceTwo, hreplaced, State.advance, hlen]
  rfl

/-- The commit ADD, SUB and MUL share, with their operation (R160). -/
theorem needTwo_commit {s : State} {m : Mnemonic} {a b : Word} {rest : List Word} (op : Word → Word → Word)
    (hlen : m.len s.cfg = 1) (hstack : s.stack = b :: a :: rest) :
    (needTwo s fun a b => .next (s.replaceTwo m (op a b))) =
      .next { s with stack := op a b :: rest, ip := s.ip + 1 } := by
  rw [needTwo_pass _ hstack, State.replaceTwo_eq _ hlen hstack]

/-- DIV commits as the others do, once its divisor is known not to be 0 (R160, R198). -/
theorem exec_div_commit {s : State} {a b : Word} {rest : List Word} (hstack : s.stack = b :: a :: rest)
    (hdivisor : b ≠ 0#32) :
    exec .div s = .next { s with stack := aluDiv a b :: rest, ip := s.ip + 1 } := by
  rw [exec_div, needTwo_pass _ hstack, needNonzero_pass _ hdivisor, State.replaceTwo_eq _ rfl hstack]

/-- Settles O11: the depth of the stack decides between the common commit and ResourceUnderflow; DIV checks its divisor
only after the depth. -/
theorem arithmeticReplacesSecondAndPopsOnce : Obligations.ArithmeticReplacesSecondAndPopsOnce := by
  intro s
  have hbyte {i : Instr} (hi : i.operand = none) : encode s.cfg i = [s.cfg.opc.byte i.mnemonic] :=
    encode_of_no_operand s.cfg hi
  refine ⟨⟨hbyte rfl, hbyte rfl, hbyte rfl, hbyte rfl⟩, fun a b rest hstack => ⟨?_, ?_, ?_, exec_div_commit hstack⟩,
    fun hshort i hi => ?_⟩
  · rw [exec_add, needTwo_commit aluAdd rfl hstack]
  · rw [exec_sub, needTwo_commit aluSub rfl hstack]
  · rw [exec_mul, needTwo_commit aluMul rfl hstack]
  · obtain rfl | rfl | rfl | rfl := hi
    · rw [exec_add, needTwo_fail _ hshort]
    · rw [exec_sub, needTwo_fail _ hshort]
    · rw [exec_mul, needTwo_fail _ hshort]
    · rw [exec_div, needTwo_fail _ hshort]

end Sys2Proof.Machine

/-! PROOF. The output instruction PRINT (spec/45_output_halt.md R180). -/

namespace Sys2Proof.Machine

/-- The OUT events between two states are the words by which `out` grew. -/
theorem outEvents_of_out_eq_append {s t : State} {words : List Word} (hout : t.out = s.out ++ words) :
    outEvents s t = words := by
  rw [outEvents, hout, List.drop_left]

/-- A fatal condition emits nothing (R180, R202). -/
theorem outEvents_faultedWith (k : FatalKind) (info : Int) (s : State) : outEvents s (s.faultedWith k info) = [] :=
  outEvents_of_out_eq_append (List.append_nil s.out).symm

/-- The text of an extended output is the old text with the new word's line after it (R182). -/
theorem renderOut_append_singleton (out : List Word) (b : Word) :
    renderOut (out ++ [b]) = renderOut out ++ renderWord b := by
  rw [renderOut, renderOut, List.flatMap_append, List.flatMap_singleton]

/-- With the check of PRINT passed, the top is at the end of `out` and no longer on the stack (R180). -/
theorem exec_print_commit {s : State} {b : Word} {rest : List Word} (hstack : s.stack = b :: rest) :
    exec .print s = .next { s with out := s.out ++ [b], stack := rest, ip := s.ip + 1 } := by
  rw [exec_print, needTop_pass _ hstack, State.pop, State.emit_stack, hstack]
  rfl

/-- Settles O15: PRINT's one check is the depth of the stack, which decides between its commit, whose `out` is longer by
the top, and ResourceUnderflow, which keeps `out`. -/
theorem printEmitsTheTopAndPops : Obligations.PrintEmitsTheTopAndPops := by
  intro s
  refine ⟨encode_of_no_operand s.cfg rfl, fun b rest hstack => ⟨exec_print_commit hstack, ?_, ?_⟩,
    fun hempty => ⟨?_, ?_⟩⟩
  · exact outEvents_of_out_eq_append rfl
  · exact renderOut_append_singleton s.out b
  · rw [exec_print, needTop_fail _ (List.length_eq_zero_iff.mp hempty)]
  · exact outEvents_faultedWith .resourceUnderflow 0 s

end Sys2Proof.Machine

/-! PROOF. The fatal conditions (spec/60_exceptions.md): every RUNNING state has one successor (R190), and a fatal
condition is precise (R202). -/

namespace Sys2Proof.Machine

variable {s t : State}

/-- The phases before the instruction's own raise their condition where they do not pass, and every instruction has a
meaning (R190). -/
theorem step_answers (hrun : s.status = .running) : ∃ t, step s = .next t := by
  rw [step_running hrun]
  cases s.decodeHere with
  | fetchOutOfRange => exact ⟨_, rfl⟩
  | unknown b => exact ⟨_, rfl⟩
  | extentOutOfRange m => exact ⟨_, rfl⟩
  | inst i next => exact exec_answers i s

/-- What is committed in RUNNING leaves the core RUNNING or, by STOP, HALTED. -/
theorem Commit.running_or_halted {i : Instr} (hcommit : Commit i s t) (hrun : s.status = .running) :
    t.status = .running ∨ t.status = .halted := by
  obtain ⟨_, hstatus⟩ | ⟨_, hstatus⟩ := hcommit.status
  · exact .inl (hstatus.trans hrun)
  · exact .inr hstatus

theorem Commit.not_faulted {i : Instr} (hcommit : Commit i s t) (hrun : s.status = .running) :
    t.status ≠ .faulted := by
  obtain hstatus | hstatus := hcommit.running_or_halted hrun <;> simp [hstatus]

/-- Settles O31: a step in RUNNING always answers, and what it answers is a fatal condition or a commit, which keeps the
record. -/
theorem everyRunningStateHasOneSuccessor : Obligations.EveryRunningStateHasOneSuccessor := by
  intro s hrun
  obtain ⟨t, hstep⟩ := step_answers hrun
  refine ⟨t, hstep, fun u hu => Host.Outcome.next.inj (hu.symm.trans hstep), ?_⟩
  obtain ⟨k, info, rfl⟩ | ⟨i, _, _, _, hcommit⟩ := step_effect hstep
  · exact .inr ⟨rfl, k, rfl⟩
  · exact .inl ⟨hcommit.not_faulted hrun, hcommit.running_or_halted hrun, hcommit.faultKind, hcommit.faultPc,
      hcommit.faultInfo⟩

/-- A step that ends FAULTED has raised a fatal condition: a commit does not end there (R202). -/
theorem step_faulted (hstep : step s = .next t) (hfault : t.status = .faulted) : RaisedFrom s t := by
  obtain hraised | ⟨_, _, _, _, hcommit⟩ := step_effect hstep
  · exact hraised
  · exact absurd hfault (hcommit.not_faulted (step_next hstep).1)

/-- A run that has left RUNNING left it by one step, and every state before that step was RUNNING. -/
theorem runLoop_last_step {k : Nat} (hrun : s.status = .running) (hloop : runLoop k s = .next t)
    (hend : t.status ≠ .running) :
    ∃ (j : Nat) (u : State), j < k ∧ runLoop j s = .next u ∧ u.status = .running ∧ step u = .next t ∧
      ∀ n v, n ≤ j → runLoop n s = .next v → v.status = .running := by
  induction k generalizing s with
  | zero =>
    cases hloop
    exact absurd hrun hend
  | succ k ih =>
    obtain ⟨s', htick, hrest⟩ := runLoop_succ_next hloop
    have hshift (n : Nat) : runLoop (n + 1) s = runLoop n s' := runLoop_succ_of_tick htick
    by_cases hrun' : s'.status = .running
    · obtain ⟨j, u, hj, hu, hurun, hustep, hbefore⟩ := ih hrun' hrest
      refine ⟨j + 1, u, by omega, (hshift j).trans hu, hurun, hustep, fun n v hn hv => ?_⟩
      cases n with
      | zero => exact Host.Outcome.next.inj hv ▸ hrun
      | succ n => exact hbefore n v (by omega) ((hshift n).symm.trans hv)
    · obtain rfl : s' = t := Host.Outcome.next.inj ((runLoop_stopped hrun' k).symm.trans hrest)
      refine ⟨0, s, by omega, rfl, hrun, (tick_running hrun).symm.trans htick, fun n v hn hv => ?_⟩
      obtain rfl : n = 0 := by omega
      exact Host.Outcome.next.inj hv ▸ hrun

/-- Settles O29: a step that ends FAULTED has raised a fatal condition, which writes `status` and the record alone; a
run that ended FAULTED ended with such a step, taken from RUNNING. -/
theorem fatalConditionsArePrecise : Obligations.FatalConditionsArePrecise := by
  refine ⟨fun s t _ hstep hfault => ?_, fun k s t hrun hloop hfault => ?_⟩
  · obtain ⟨kind, info, rfl⟩ := step_faulted hstep hfault
    have hstopped : (s.faultedWith kind info).status ≠ .running := by simp
    exact ⟨⟨rfl, fun _ => rfl⟩, rfl, rfl, rfl, step_stops hstopped, runLoop_stopped hstopped⟩
  · obtain ⟨j, u, hj, hu, hurun, hustep, hbefore⟩ := runLoop_last_step hrun hloop (by simp [hfault])
    obtain ⟨kind, info, rfl⟩ := step_faulted hustep hfault
    exact ⟨j, u, hj, hu, hurun, hustep, rfl, hbefore⟩

end Sys2Proof.Machine

/-! PROOF. The one cause of ArithmeticFault (spec/60_exceptions.md R198). -/

namespace Sys2Proof.Machine

/-- Where `r` answers a next state that records an ArithmeticFault, the record was there before: `r`, run in `s`, raises
none. -/
def NoNewArithmeticFault (s : State) (r : Result) : Prop :=
  ∀ t, r = .next t → t.faultKind = some .arithmeticFault → s.faultKind = some .arithmeticFault

namespace NoNewArithmeticFault

variable {s : State}

theorem of_commit {t : State} (hkept : t.faultKind = s.faultKind) : NoNewArithmeticFault s (.next t) := by
  intro u h hrecord
  cases h
  exact hkept ▸ hrecord

theorem of_needRegister {r : Int} {k : Nat → Result} (hk : ∀ i, NoNewArithmeticFault s (k i)) :
    NoNewArithmeticFault s (needRegister r s k) := by
  intro t h hrecord
  obtain ⟨i, _, _, hi⟩ | ⟨_, rfl⟩ := needRegister_next h
  · exact hk i t hi hrecord
  · cases hrecord

theorem of_needTarget {a : Int} {k : Nat → Result} (hk : ∀ i, NoNewArithmeticFault s (k i)) :
    NoNewArithmeticFault s (needTarget a s k) := by
  intro t h hrecord
  obtain ⟨i, _, _, hi⟩ | ⟨_, rfl⟩ := needTarget_next h
  · exact hk i t hi hrecord
  · cases hrecord

theorem of_needRoom {k : Result} (hk : NoNewArithmeticFault s k) : NoNewArithmeticFault s (needRoom s k) := by
  intro t h hrecord
  obtain ⟨_, h⟩ | ⟨_, rfl⟩ := needRoom_next h
  · exact hk t h hrecord
  · cases hrecord

theorem of_needTop {k : Word → Result} (hk : ∀ b, NoNewArithmeticFault s (k b)) :
    NoNewArithmeticFault s (needTop s k) := by
  intro t h hrecord
  obtain ⟨b, _, _, hb⟩ | ⟨_, rfl⟩ := needTop_next h
  · exact hk b t hb hrecord
  · cases hrecord

theorem of_needTwo {k : Word → Word → Result} (hk : ∀ a b, NoNewArithmeticFault s (k a b)) :
    NoNewArithmeticFault s (needTwo s k) := by
  intro t h hrecord
  obtain ⟨a, b, _, _, hab⟩ | ⟨_, rfl⟩ := needTwo_next h
  · exact hk a b t hab hrecord
  · cases hrecord

end NoNewArithmeticFault

/-- JZ and JNZ keep the fault record on both of their paths. -/
theorem branch_faultKind (m : Mnemonic) (taken : Bool) (i : Nat) (s : State) :
    (s.branch m taken i).faultKind = s.faultKind := by
  cases taken <;> rfl

/-- No check but `needNonzero` raises ArithmeticFault, and only DIV makes that one (R116, R198). -/
theorem exec_noNewArithmeticFault {i : Instr} (hi : i ≠ .div) (s : State) : NoNewArithmeticFault s (exec i s) := by
  cases i with
  | nop => rw [exec_nop]; exact .of_commit rfl
  | push n => rw [exec_push]; exact .of_needRoom (.of_commit rfl)
  | pop => rw [exec_pop]; exact .of_needTop fun _ => .of_commit rfl
  | load r => rw [exec_load]; exact .of_needRegister fun _ => .of_needRoom (.of_commit rfl)
  | store r => rw [exec_store]; exact .of_needRegister fun _ => .of_needTop fun _ => .of_commit rfl
  | jmp a => rw [exec_jmp]; exact .of_needTarget fun _ => .of_commit rfl
  | jz a => rw [exec_jz]; exact .of_needTarget fun _ => .of_needTop fun _ => .of_commit (branch_faultKind _ _ _ s)
  | jnz a => rw [exec_jnz]; exact .of_needTarget fun _ => .of_needTop fun _ => .of_commit (branch_faultKind _ _ _ s)
  | add => rw [exec_add]; exact .of_needTwo fun _ _ => .of_commit rfl
  | sub => rw [exec_sub]; exact .of_needTwo fun _ _ => .of_commit rfl
  | mul => rw [exec_mul]; exact .of_needTwo fun _ _ => .of_commit rfl
  | div => exact absurd rfl hi
  | print => rw [exec_print]; exact .of_needTop fun _ => .of_commit rfl
  | stop => rw [exec_stop]; exact .of_commit rfl

/-- With two live entries DIV passes its check of the depth and fails that of the divisor 0 (R164, R198). -/
theorem exec_div_by_zero {s : State} {a : Word} {rest : List Word} (hstack : s.stack = 0#32 :: a :: rest) :
    exec .div s = .next (s.faultedWith .arithmeticFault 0) := by
  rw [exec_div, needTwo_pass _ hstack, needNonzero_fail _ rfl]

/-- Settles O14: no instruction but DIV records a new ArithmeticFault, and of DIV's three outcomes only the one over a
zero divisor does. -/
theorem onlyAZeroDivisorRaisesArithmeticFault : Obligations.OnlyAZeroDivisorRaisesArithmeticFault := by
  refine ⟨fun s a rest => exec_div_by_zero, fun i s t hexec hbefore hrecord => ?_⟩
  obtain rfl : i = .div := by
    by_contra hi
    exact hbefore (exec_noNewArithmeticFault hi s t hexec hrecord)
  obtain ⟨_, _, _, _, _, rfl⟩ | ⟨_, rfl⟩ | ⟨a, rest, hstack, _⟩ := execDiv_next hexec
  · exact absurd hrecord hbefore
  · cases hrecord
  · exact ⟨rfl, a, rest, hstack⟩

end Sys2Proof.Machine

/-! PROOF. The invariant of the machine (spec/10_state.md R29): it holds after RESET, and every step and every event of the
host keeps it, so every session from RESET does. -/

namespace Sys2Proof.Machine

variable {s t : State}

/-- The address after a decoded instruction, and its bound (R113). -/
theorem decodeHere_next {i : Instr} {next : Nat} (hdecode : s.decodeHere = .inst i next) :
    next = s.ip + i.mnemonic.len s.cfg ∧ next ≤ s.cfg.maxInsts := by
  obtain ⟨m, _, _, hextent, rfl, rfl⟩ := decode_inst hdecode
  rw [Instr.build_mnemonic]
  exact ⟨rfl, hextent⟩

namespace State.Inv

/-- RESET of a legal configuration meets the invariant: the buffer and the stack are empty, the bank is filled (R41). -/
theorem of_resetOf {c : Config} (hlegal : c.legal = true) : (resetOf c).Inv where
  legal := hlegal
  canonical := rfl
  inBuffer := rfl
  bank := List.length_replicate
  spBound := Nat.zero_le _
  ipBound := Nat.zero_le _
  noRecord := fun _ => ⟨rfl, rfl, rfl⟩
  recorded := fun h => by cases h
  idleFresh := fun _ => ⟨rfl, rfl, rfl, rfl⟩

/-- A fatal condition keeps the invariant: it writes `status` and the record together (R118). -/
theorem faultedWith (hinv : s.Inv) (k : FatalKind) (info : Int) : (s.faultedWith k info).Inv where
  legal := hinv.legal
  canonical := hinv.canonical
  inBuffer := hinv.inBuffer
  bank := hinv.bank
  spBound := hinv.spBound
  ipBound := hinv.ipBound
  noRecord := fun h => absurd rfl h
  recorded := fun _ h => by cases h
  idleFresh := fun h => by cases h

/-- The commit of a decoded instruction keeps the invariant: `ip` is within the buffer by the extent check or by the check
of the target, and the stack grows only where there is room. -/
theorem commit {i : Instr} {next : Nat} (hinv : s.Inv) (hrun : s.status = .running)
    (hdecode : s.decodeHere = .inst i next) (hcommit : Commit i s t) : t.Inv where
  legal := hcommit.cfg ▸ hinv.legal
  canonical := hcommit.instructions ▸ hinv.canonical
  inBuffer := by rw [hcommit.cfg, hcommit.instructions]; exact hinv.inBuffer
  bank := by rw [hcommit.cfg, hcommit.bank]; exact hinv.bank
  spBound := by
    rw [hcommit.cfg]
    obtain hdepth | hdepth := hcommit.depth
    · exact hdepth.trans hinv.spBound
    · exact hdepth
  ipBound := by
    obtain ⟨hnext, hbound⟩ := decodeHere_next hdecode
    rw [hcommit.cfg]
    obtain hip | ⟨a, _, ha, hip⟩ := hcommit.ip <;> omega
  noRecord := fun _ => by
    rw [hcommit.faultKind, hcommit.faultPc, hcommit.faultInfo]
    exact hinv.noRecord (by simp [hrun])
  recorded := fun hfault => absurd hfault (hcommit.not_faulted hrun)
  idleFresh := fun hidle => by
    obtain hstatus | hstatus := hcommit.running_or_halted hrun <;> simp [hstatus] at hidle

/-- A failed load keeps the invariant: like any fatal condition it writes `status` and the record together (R233). -/
theorem loadFailed (hinv : s.Inv) : s.loadFailed.Inv :=
  { hinv.faultedWith .programLoadFailure 0 with
    noRecord := fun h => absurd rfl h
    recorded := fun _ h => by cases h
    idleFresh := fun h => by cases h }

/-- A program that fits is installed within the buffer and in canonical form; one that does not is a failed load
(R232, R234). -/
theorem install (hinv : s.Inv) (prog : List Byte) : (s.install prog).Inv := by
  unfold State.install
  split
  · next hfits =>
    exact { hinv with
      canonical := Memory.wf_writeBytes hinv.canonical 0 prog
      inBuffer := Memory.below_writeBytes hinv.inBuffer 0 prog (by omega) }
  · exact hinv.loadFailed

/-- START from IDLE keeps the invariant: in IDLE nothing is recorded (R231). -/
theorem started (hinv : s.Inv) (hidle : s.status = .idle) : s.started.Inv where
  legal := hinv.legal
  canonical := hinv.canonical
  inBuffer := hinv.inBuffer
  bank := hinv.bank
  spBound := Nat.zero_le _
  ipBound := Nat.zero_le _
  noRecord := fun _ => hinv.noRecord (by simp [hidle])
  recorded := fun h => by cases h
  idleFresh := fun h => by cases h

/-- An event of which only IDLE takes notice keeps what its effect in IDLE keeps (R236). -/
theorem whenIdle {f : State → State} (hinv : s.Inv) (hf : s.status = .idle → (f s).Inv) : (s.whenIdle f).Inv := by
  by_cases hidle : s.status = .idle
  · rw [whenIdle_idle f hidle]
    exact hf hidle
  · rw [whenIdle_other f hidle]
    exact hinv

end State.Inv

/-- Settles O35: a step raises a fatal condition or commits the decoded instruction, and both keep the invariant. -/
theorem stepKeepsTheInvariant : Obligations.StepKeepsTheInvariant := by
  intro s t hinv hstep
  obtain ⟨k, info, rfl⟩ | ⟨i, next, hdecode, _, hcommit⟩ := step_effect hstep
  · exact hinv.faultedWith k info
  · exact hinv.commit (step_next hstep).1 hdecode hcommit

/-- Settles O2: the reset state of any legal configuration, of which the defaults are one. -/
theorem resetMeetsTheInvariant : Obligations.ResetMeetsTheInvariant :=
  ⟨fun _ => .of_resetOf, .of_resetOf (by decide)⟩

/-- Settles O36: RESET begins afresh; the other three events act in IDLE only. -/
theorem hostEventsKeepTheInvariant : Obligations.HostEventsKeepTheInvariant := by
  intro e s hinv
  cases e with
  | reset => exact .of_resetOf hinv.legal
  | load prog => exact hinv.whenIdle fun _ => hinv.install prog
  | loadFail => exact hinv.whenIdle fun _ => hinv.loadFailed
  | start => exact hinv.whenIdle hinv.started

/-- A turn of the loop always answers, and keeps the invariant (R119). -/
theorem tick_keeps_inv (hinv : s.Inv) : ∃ t, tick s = .next t ∧ t.Inv := by
  by_cases hrun : s.status = .running
  · obtain ⟨t, hstep⟩ := step_answers hrun
    exact ⟨t, (tick_running hrun).trans hstep, stepKeepsTheInvariant s t hinv hstep⟩
  · exact ⟨s, tick_stopped hrun, hinv⟩

/-- A session from a state that meets the invariant ends in one or is refused, whether or not a program is loaded. -/
theorem drive_keeps_inv (items : List SessionItem) (loaded : Bool) (hinv : s.Inv) :
    (∃ t, drive loaded items s = .next t ∧ t.Inv) ∨ drive loaded items s = .refused .secondLoad := by
  induction items generalizing loaded s with
  | nil => exact .inl ⟨s, rfl, hinv⟩
  | cons item items ih =>
    cases item with
    | event e =>
      rw [drive]
      cases isSecondLoad e s.status loaded with
      | true => exact .inr rfl
      | false => exact ih _ (hostEventsKeepTheInvariant e s hinv)
    | turn =>
      obtain ⟨t, htick, ht⟩ := tick_keeps_inv hinv
      rw [drive, htick]
      exact ih loaded ht

/-- Settles O37: RESET meets the invariant and the session keeps it, by induction on its items. -/
theorem everySessionFromResetMeetsTheInvariant : Obligations.EverySessionFromResetMeetsTheInvariant :=
  fun _ items hlegal => drive_keeps_inv items false (.of_resetOf hlegal)

end Sys2Proof.Machine

/-! PROOF. The round trips of the encoding (spec/30_encoding.md R83, R93, R94): decode of encode is the instruction, and
encode of decode is the bytes. Both rest on one equivalence, between the bytes of a field and the number they are. -/

namespace Sys2Proof

/-- The encoded instruction has `1 + w` bytes: the family EncodedLength, for every instruction (R89). -/
theorem encode_length (c : Config) (i : Instr) : (encode c i).length = i.mnemonic.len c := by
  have hstatement : Laws.EncodedLength.Statement i := by
    cases i with
    | nop => exact Laws.EncodedLength.nop
    | push n => exact Laws.EncodedLength.push n
    | pop => exact Laws.EncodedLength.pop
    | load r => exact Laws.EncodedLength.load r
    | store r => exact Laws.EncodedLength.store r
    | jmp a => exact Laws.EncodedLength.jmp a
    | jz a => exact Laws.EncodedLength.jz a
    | jnz a => exact Laws.EncodedLength.jnz a
    | add => exact Laws.EncodedLength.add
    | sub => exact Laws.EncodedLength.sub
    | mul => exact Laws.EncodedLength.mul
    | div => exact Laws.EncodedLength.div
    | print => exact Laws.EncodedLength.print
    | stop => exact Laws.EncodedLength.stop
  exact hstatement c

/-- An instruction is built from its mnemonic and its operand, if it has one. -/
theorem Instr.build_eq_self {i : Instr} {imm : Int} (h : ∀ v, i.operand = some v → imm = v) :
    Instr.build i.mnemonic imm = i := by
  cases i with
  | push n => exact congrArg Instr.push (h n rfl)
  | load r => exact congrArg Instr.load (h r rfl)
  | store r => exact congrArg Instr.store (h r rfl)
  | jmp a => exact congrArg Instr.jmp (h a rfl)
  | jz a => exact congrArg Instr.jz (h a rfl)
  | jnz a => exact congrArg Instr.jnz (h a rfl)
  | _ => rfl

/-- An instruction with an operand has an immediate field (R80, R82). -/
theorem Instr.width_pos_of_operand (c : Config) {i : Instr} {v : Int} (h : i.operand = some v) :
    0 < i.mnemonic.width c := by
  cases i <;> cases h
  case jnz => exact (Mnemonic.width_jnz c).1
  all_goals exact Nat.succ_pos _

/-- An instruction is well-formed when its operand, if it has one, fits its field (R94). -/
theorem Instr.wellFormed_iff (c : Config) (i : Instr) :
    i.wellFormed c = true ↔ ∀ v, i.operand = some v → fitsSigned (8 * i.mnemonic.width c) v = true := by
  have hjnz (a : Int) : (Instr.jnz a).wellFormed c = fitsSigned (8 * Mnemonic.width c .jnz) a := by
    cases hw : c.jnzW with
    | one => simp [Instr.wellFormed, hw, Mnemonic.width_jnz_of_one hw]
    | two => simp [Instr.wellFormed, hw, Mnemonic.width_jnz_of_two hw]
  cases i with
  | jnz a => simp [hjnz, Instr.operand, Instr.mnemonic]
  | _ => simp [Instr.wellFormed, Instr.operand, Instr.mnemonic, Mnemonic.width, Mnemonic.format, Format.width]

theorem fitsSigned_iff {bits : Nat} {v : Int} :
    fitsSigned bits v = true ↔ -(2 ^ (bits - 1) : Int) ≤ v ∧ v < 2 ^ (bits - 1) := by
  simp only [fitsSigned, Bool.and_eq_true, decide_eq_true_eq]

/-- Two integers of one signed range with the same residue are equal: the range is as wide as the modulus. -/
theorem eq_of_fitsSigned_of_emod_eq {bits : Nat} {v v' : Int} (hbits : 0 < bits) (h : fitsSigned bits v = true)
    (h' : fitsSigned bits v' = true) (hmod : v % 2 ^ bits = v' % 2 ^ bits) : v = v' := by
  obtain ⟨n, rfl⟩ : ∃ n, bits = n + 1 := ⟨bits - 1, by omega⟩
  rw [fitsSigned_iff, Nat.add_sub_cancel] at h h'
  have hdvd : (2 : Int) ^ (n + 1) ∣ v - v' := Int.ModEq.dvd (Eq.symm hmod)
  have hsmall : |v - v'| < 2 ^ (n + 1) := by
    rw [abs_lt, pow_succ]
    omega
  exact sub_eq_zero.mp (Int.eq_zero_of_abs_lt_dvd hdvd hsmall)

/-- A byte holds the low eight bits of an integer exactly when it is the integer's residue. -/
theorem eq_ofInt_iff_toNat_eq_emod (b : Byte) (v : Int) : b = BitVec.ofInt 8 v ↔ (b.toNat : Int) = v % 256 := by
  have hofInt : ((BitVec.ofInt 8 v).toNat : Int) = v % 256 := by
    rw [BitVec.toNat_ofInt]
    omega
  rw [← BitVec.toNat_inj, ← hofInt, Int.ofNat_inj]

end Sys2Proof

namespace Sys2Proof.Machine

theorem bytesAt_nil (buf : Memory) (a : Nat) : BytesAt buf a [] := fun _ _ h => by cases h

theorem bytesAt_cons {buf : Memory} {a : Nat} {b : Byte} {bs : List Byte} :
    BytesAt buf a (b :: bs) ↔ Memory.read buf a = b ∧ BytesAt buf (a + 1) bs := by
  have hshift (k : Nat) : a + (k + 1) = a + 1 + k := by omega
  constructor
  · intro h
    exact ⟨h 0 b rfl, fun k b' hk => hshift k ▸ h (k + 1) b' hk⟩
  · rintro ⟨hhead, htail⟩ k b' hk
    cases k with
    | zero =>
      cases hk
      exact hhead
    | succ k => exact hshift k ▸ htail k b' hk

/-- The low-order bytes of an integer stand at an address exactly when the little-endian number there is the integer's
residue (R52, R94). -/
theorem bytesAt_leBytes_iff (buf : Memory) (a n : Nat) (v : Int) :
    BytesAt buf a (leBytes n v) ↔ (Memory.readLE buf a n : Int) = v % 256 ^ n := by
  induction n generalizing a v with
  | zero => simp [leBytes, bytesAt_nil, Memory.readLE]
  | succ n ih =>
    have hbyte := (Memory.read buf a).isLt
    have hresidue : 0 ≤ v % 256 ∧ v % 256 < 256 := by omega
    rw [leBytes, bytesAt_cons, ih, eq_ofInt_iff_toNat_eq_emod, Memory.readLE, pow_succ', emod_256_mul]
    push_cast
    omega

/-- The instruction whose bytes stand whole at an address has the immediate that the decoder reads there (R83, R94). -/
theorem immediateAt_of_bytesAt {c : Config} {buf : Memory} {pc0 : Nat} {i : Instr} {v : Int}
    (hoperand : i.operand = some v) (hwf : i.wellFormed c = true) (hbytes : BytesAt buf pc0 (encode c i)) :
    immediateAt c buf pc0 i.mnemonic = v := by
  have hpos := Instr.width_pos_of_operand c hoperand
  obtain ⟨hlow, hhigh, hresidue⟩ := immediateAt_spec (c := c) buf pc0 rfl hpos
  rw [encode_of_operand c hoperand, bytesAt_cons, bytesAt_leBytes_iff] at hbytes
  refine eq_of_fitsSigned_of_emod_eq (bits := 8 * i.mnemonic.width c) (by omega) (fitsSigned_iff.mpr ⟨hlow, hhigh⟩)
    ((Instr.wellFormed_iff c i).mp hwf v hoperand) ?_
  rw [hresidue, hbytes.2, pow_mul]
  norm_num

/-- Settles O40: on a legal configuration the opcode byte gives the mnemonic back, and the bytes of the field give the
operand back, since a well-formed operand is determined by its residue. -/
theorem decodeOfEncodeIsTheInstruction : Obligations.DecodeOfEncodeIsTheInstruction := by
  intro c buf pc0 i hlegal hwf hfits hbytes
  rw [encode_length] at hfits ⊢
  have hopcode : c.opc.mnemonicOf (Memory.read buf pc0) = some i.mnemonic := by
    rw [(bytesAt_cons.mp hbytes).1]
    exact Config.mnemonicOf_byte hlegal i.mnemonic
  have hinside : pc0 < c.maxInsts := by
    have hlen : i.mnemonic.len c = 1 + i.mnemonic.width c := rfl
    omega
  rw [decode_of_whole hinside hopcode hfits,
    Instr.build_eq_self fun _ hoperand => immediateAt_of_bytesAt hoperand hwf hbytes]

/-- What the decoder reads as an instruction fits its field (R83, R94). -/
theorem decode_inst_wellFormed {c : Config} {buf : Memory} {pc0 next : Nat} {i : Instr}
    (hdecode : decode c buf pc0 = .inst i next) : i.wellFormed c = true := by
  refine (Instr.wellFormed_iff c i).mpr fun v hoperand => ?_
  have hpos := Instr.width_pos_of_operand c hoperand
  have hv : immediateAt c buf pc0 i.mnemonic = v := by
    rw [decode_inst_operand hdecode, if_neg hpos.ne'] at hoperand
    exact Option.some.inj hoperand
  obtain ⟨hlow, hhigh, _⟩ := immediateAt_spec (c := c) buf pc0 (m := i.mnemonic) rfl hpos
  exact fitsSigned_iff.mpr (hv ▸ ⟨hlow, hhigh⟩)

/-- What the decoder reads as an instruction is encoded by the bytes it was read from (R83, R94). -/
theorem decode_inst_bytesAt {c : Config} {buf : Memory} {pc0 next : Nat} {i : Instr}
    (hdecode : decode c buf pc0 = .inst i next) : BytesAt buf pc0 (encode c i) := by
  obtain ⟨m, _, hopcode, _, hi, _⟩ := decode_inst hdecode
  have hbyte : Memory.read buf pc0 = c.opc.byte i.mnemonic := by
    rw [hi, Instr.build_mnemonic]
    exact (OpcodeMap.byte_of_mnemonicOf hopcode).symm
  have hoperand := decode_inst_operand hdecode
  obtain hzero | hpos := Nat.eq_zero_or_pos (i.mnemonic.width c)
  · rw [if_pos hzero] at hoperand
    rw [encode_of_no_operand c hoperand]
    exact bytesAt_cons.mpr ⟨hbyte, bytesAt_nil buf (pc0 + 1)⟩
  · rw [if_neg hpos.ne'] at hoperand
    rw [encode_of_operand c hoperand, bytesAt_cons, bytesAt_leBytes_iff]
    obtain ⟨_, _, hresidue⟩ := immediateAt_spec (c := c) buf pc0 (m := i.mnemonic) rfl hpos
    refine ⟨hbyte, ?_⟩
    rw [← hresidue, pow_mul]
    norm_num

/-- Settles O41: the decoder's answer is built from the opcode byte's mnemonic and from the immediate, whose range makes it
well-formed and whose residue is the number its bytes are. -/
theorem encodeOfDecodeIsTheBytes : Obligations.EncodeOfDecodeIsTheBytes := by
  intro c buf pc0 next i hdecode
  obtain ⟨m, _, _, hextent, hi, hnext⟩ := decode_inst hdecode
  have hm : m = i.mnemonic := by rw [hi, Instr.build_mnemonic]
  have hlength := encode_length c i
  refine ⟨decode_inst_wellFormed hdecode, decode_inst_bytesAt hdecode, hlength, ?_, ?_⟩
  · rw [hnext, hlength, hm]
  · rw [hnext]
    exact hextent

end Sys2Proof.Machine

/-! PROOF. The words the arithmetic gives (spec/44_alu.md R165, R166) and the text of a printed word
(spec/45_output_halt.md R182). -/

namespace Sys2Proof.Machine

/-- `wrap32` reduces modulo 2^32 into the signed range (R8, R165). -/
theorem wrap32_toInt (z : Int) : (wrap32 z).toInt = (z + 2 ^ 31) % 2 ^ 32 - 2 ^ 31 := by
  rw [wrap32, BitVec.toInt_ofInt, Int.bmod_def]
  norm_num
  omega

/-- Within the signed range `wrap32` keeps the value. -/
theorem wrap32_toInt_of_range {z : Int} (hlow : -2 ^ 31 ≤ z) (hhigh : z < 2 ^ 31) : (wrap32 z).toInt = z := by
  rw [wrap32_toInt]
  omega

/-- Settles O12: the law is `wrap32`'s; the algebra and the unsigned reading are those of the bit vectors' own operations,
which the ALU's are. -/
theorem addSubMulWrapModuloTwoToThe32 : Obligations.AddSubMulWrapModuloTwoToThe32 := by
  intro a b c
  refine ⟨⟨wrap32_toInt _, wrap32_toInt _, wrap32_toInt _⟩, ?_, ?_⟩
  · simp only [aluAdd_eq, aluSub_eq, aluMul_eq]
    refine ⟨BitVec.add_comm a b, BitVec.add_assoc a b c, BitVec.mul_comm a b, BitVec.mul_assoc a b c, ?_⟩
    rw [BitVec.zero_sub, BitVec.sub_eq_add_neg]
  · rw [aluAdd_eq, aluMul_eq]
    exact ⟨BitVec.toNat_add a b, BitVec.toNat_mul a b⟩

/-- The truncated quotient of two words is a word's value but for the one pair whose exact quotient is 2^31 (R166). -/
theorem tdiv_range {a b : Word} (hpair : ¬(a.toInt = -2147483648 ∧ b.toInt = -1)) :
    -2 ^ 31 ≤ a.toInt.tdiv b.toInt ∧ a.toInt.tdiv b.toInt < 2 ^ 31 := by
  have hlow : -2147483648 ≤ a.toInt := BitVec.le_toInt a
  have hhigh : a.toInt < 2147483648 := BitVec.toInt_lt
  have hmagnitude : (a.toInt.tdiv b.toInt).natAbs = a.toInt.natAbs / b.toInt.natAbs := Int.natAbs_tdiv _ _
  obtain hsmall | hone | hone | hlarge :
      b.toInt.natAbs = 0 ∨ b.toInt = 1 ∨ b.toInt = -1 ∨ 2 ≤ b.toInt.natAbs := by omega
  · rw [hsmall, Nat.div_zero] at hmagnitude
    omega
  · rw [hone, Int.tdiv_one]
    exact ⟨hlow, hhigh⟩
  · rw [hone, Int.natAbs_neg, Int.natAbs_one, Nat.div_one, ← hone] at hmagnitude
    omega
  · have hhalf : a.toInt.natAbs / b.toInt.natAbs ≤ a.toInt.natAbs / 2 := Nat.div_le_div_left hlarge (by omega)
    omega

/-- The truncated quotient has the sign of the product, which is that of the exact quotient (R166). -/
theorem tdiv_nonneg_of_mul_nonneg {a b : Int} (h : 0 ≤ a * b) : 0 ≤ a.tdiv b := by
  obtain ⟨ha, hb⟩ | ⟨ha, hb⟩ := mul_nonneg_iff.mp h
  · exact Int.tdiv_nonneg ha hb
  · exact Int.tdiv_nonneg_of_nonpos_of_nonpos ha hb

theorem tdiv_nonpos_of_mul_nonpos {a b : Int} (h : a * b ≤ 0) : a.tdiv b ≤ 0 := by
  have hneg : 0 ≤ (-a).tdiv b := tdiv_nonneg_of_mul_nonneg (by rw [Int.neg_mul]; omega)
  rw [Int.neg_tdiv] at hneg
  omega

/-- Settles O13: outside the one pair `wrap32` changes nothing, and `Int.tdiv` has the magnitude and the sign of the
law. -/
theorem divTruncatesTowardZero : Obligations.DivTruncatesTowardZero := by
  intro a b _
  refine ⟨?_, fun hpair => ?_⟩
  · rintro ⟨ha, hb⟩
    rw [aluDiv, wrap32_toInt, ha, hb]
    rfl
  · obtain ⟨hlow, hhigh⟩ := tdiv_range hpair
    rw [aluDiv, wrap32_toInt_of_range hlow hhigh]
    exact ⟨Int.natAbs_tdiv _ _, tdiv_nonneg_of_mul_nonneg, tdiv_nonpos_of_mul_nonpos⟩

/-- The decimal digits of a number, the most significant first, with no leading zero (R182). -/
structure IsShortestDecimal (ds : List Nat) (n : Nat) : Prop where
  nonempty : ds ≠ []
  digit    : ∀ d ∈ ds, d < 10
  leading  : ds.head? = some 0 → ds = [0]
  value    : ds.foldl (fun n d => 10 * n + d) 0 = n

namespace IsShortestDecimal

theorem singleton {n : Nat} (hn : n < 10) : IsShortestDecimal [n] n where
  nonempty := List.cons_ne_nil n []
  digit := fun d hd => List.mem_singleton.mp hd ▸ hn
  leading := fun h => congrArg (fun d => [d]) (Option.some.inj h)
  value := by simp

/-- A last digit after the numeral of a number that is not 0: the numeral's leading digit stays the leading one. -/
theorem append_digit {ds : List Nat} {n d : Nat} (h : IsShortestDecimal ds n) (hn : n ≠ 0) (hd : d < 10) :
    IsShortestDecimal (ds ++ [d]) (10 * n + d) where
  nonempty := List.append_ne_nil_of_left_ne_nil h.nonempty [d]
  digit := fun d' hd' => by
    obtain hmem | hmem := List.mem_append.mp hd'
    · exact h.digit d' hmem
    · exact List.mem_singleton.mp hmem ▸ hd
  leading := fun hhead => by
    rw [List.head?_append_of_ne_nil _ h.nonempty] at hhead
    have hvalue := h.value
    rw [h.leading hhead] at hvalue
    exact absurd hvalue.symm hn
  value := by rw [List.foldl_append, h.value]; rfl

end IsShortestDecimal

/-- The digit of a number below ten is the number, and it is the last to be put in front. -/
theorem digitsAux_of_lt_ten (k : Nat) {n : Nat} (acc : List Nat) (hn : n < 10) : digitsAux (k + 1) n acc = n :: acc := by
  rw [digitsAux, if_pos (by omega), Nat.mod_eq_of_lt hn]

/-- With room for the digits of `n`, `digitsAux` puts its shortest numeral in front of what it is given. -/
theorem digitsAux_spec (k n : Nat) (acc : List Nat) (hn : n < 10 ^ (k + 1)) :
    ∃ ds, digitsAux (k + 1) n acc = ds ++ acc ∧ IsShortestDecimal ds n := by
  induction k generalizing n acc with
  | zero =>
    have hdigit : n < 10 := by simpa using hn
    exact ⟨[n], digitsAux_of_lt_ten 0 acc hdigit, .singleton hdigit⟩
  | succ k ih =>
    by_cases hdigit : n < 10
    · exact ⟨[n], digitsAux_of_lt_ten (k + 1) acc hdigit, .singleton hdigit⟩
    · have hquotient : n / 10 < 10 ^ (k + 1) := by rw [pow_succ] at hn; omega
      have hnonzero : n / 10 ≠ 0 := by omega
      obtain ⟨ds, hds, hshortest⟩ := ih (n / 10) (n % 10 :: acc) hquotient
      have hextended := hshortest.append_digit hnonzero (Nat.mod_lt n (by decide))
      rw [Nat.div_add_mod] at hextended
      refine ⟨ds ++ [n % 10], ?_, hextended⟩
      rw [digitsAux, if_neg hnonzero, hds, List.append_assoc]
      rfl

/-- Ten digits are enough for the magnitude of a word. -/
theorem digits_natAbs_spec (v : Word) : IsShortestDecimal (digits v.toInt.natAbs) v.toInt.natAbs := by
  have hlow : -2147483648 ≤ v.toInt := BitVec.le_toInt v
  have hhigh : v.toInt < 2147483648 := BitVec.toInt_lt
  obtain ⟨ds, hds, hshortest⟩ := digitsAux_spec 9 v.toInt.natAbs [] (by omega)
  rw [digits, hds, List.append_nil]
  exact hshortest

/-- Settles O60: the digits of the text are `digits` of the magnitude, which are its shortest numeral. -/
theorem printedTextIsTheShortestDecimal : Obligations.PrintedTextIsTheShortestDecimal := by
  intro v
  obtain ⟨hnonempty, hdigit, hleading, hvalue⟩ := digits_natAbs_spec v
  exact ⟨digits v.toInt.natAbs, rfl, hnonempty, hdigit, hleading, hvalue⟩

end Sys2Proof.Machine

/-! PROOF. The frames of the instructions (spec/10_state.md section 6): what a commit leaves follows from `Commit`, but for
the stack, which each group of instructions changes in its own way. -/

namespace Sys2Proof.Machine

variable {i : Instr} {s t : State}

namespace Commit

theorem sameBuffer (h : Commit i s t) : SameBuffer s t :=
  ⟨h.cfg, fun a => congrArg (fun m => Memory.read m a) h.instructions⟩

theorem status_of_ne_stop (h : Commit i s t) (hi : i ≠ .stop) : t.status = s.status := by
  obtain ⟨_, hstatus⟩ | ⟨hstop, _⟩ := h.status
  · exact hstatus
  · exact absurd hstop hi

theorem status_of_stop (h : Commit .stop s t) : t.status = .halted := by
  obtain ⟨hne, _⟩ | ⟨_, hstatus⟩ := h.status
  · exact absurd rfl hne
  · exact hstatus

theorem sameControl (h : Commit i s t) (hi : i ≠ .stop) : SameControl s t :=
  ⟨h.status_of_ne_stop hi, h.faultKind, h.faultPc, h.faultInfo⟩

theorem register_of_ne_store (h : Commit i s t) {j : Nat} (hi : i ≠ .store j) : t.registers[j]? = s.registers[j]? := by
  by_contra hchanged
  exact hi (h.register j hchanged).1

theorem registers_of_ne_store (h : Commit i s t) (hi : ∀ j : Nat, i ≠ .store j) : t.registers = s.registers :=
  List.ext_getElem? fun j => h.register_of_ne_store (hi j)

theorem out_of_ne_print (h : Commit i s t) (hi : i ≠ .print) : t.out = s.out := by
  by_contra hchanged
  exact hi (h.output hchanged).1

end Commit

/-! What each group of instructions does to the stack. -/

/-- JZ and JNZ leave the stack on both of their paths. -/
theorem branch_stack (m : Mnemonic) (taken : Bool) (n : Nat) (s : State) : (s.branch m taken n).stack = s.stack := by
  cases taken <;> rfl

/-- NOP, STOP and the jumps leave the whole stack, whatever they answer. -/
theorem exec_stack_unchanged (hi : i = .nop ∨ i = .stop ∨ ∃ a, i = .jmp a ∨ i = .jz a ∨ i = .jnz a)
    (h : exec i s = .next t) : t.stack = s.stack := by
  obtain rfl | rfl | ⟨a, rfl | rfl | rfl⟩ := hi
  · rw [execNop_next h, State.advance_stack]
  · rw [execStop_next h, State.halt_stack, State.advance_stack]
  · obtain ⟨_, _, _, rfl⟩ | ⟨_, rfl⟩ := execJmp_next h <;> rfl
  · obtain ⟨_, _, _, _, _, _, rfl⟩ | ⟨_, rfl⟩ | ⟨_, _, rfl⟩ := execJz_next h
    · exact branch_stack _ _ _ s
    all_goals rfl
  · obtain ⟨_, _, _, _, _, _, rfl⟩ | ⟨_, rfl⟩ | ⟨_, _, rfl⟩ := execJnz_next h
    · exact branch_stack _ _ _ s
    all_goals rfl

/-- PUSH and LOAD put one word on the stack. -/
theorem exec_stack_pushed (hi : ∃ v, i = .push v ∨ i = .load v) (h : exec i s = .next t) :
    RaisedFrom s t ∨ ∃ w, t.stack = w :: s.stack := by
  obtain ⟨v, rfl | rfl⟩ := hi
  · obtain ⟨_, rfl⟩ | ⟨_, rfl⟩ := execPush_next h
    · exact .inr ⟨_, rfl⟩
    · exact .inl ⟨_, _, rfl⟩
  · obtain ⟨_, _, _, _, rfl⟩ | ⟨_, rfl⟩ | ⟨_, _, rfl⟩ := execLoad_next h
    · exact .inr ⟨_, rfl⟩
    all_goals exact .inl ⟨_, _, rfl⟩

/-- POP, STORE and PRINT take the top off the stack. -/
theorem exec_stack_popped (hi : i = .pop ∨ i = .print ∨ ∃ r, i = .store r) (h : exec i s = .next t) :
    RaisedFrom s t ∨ ∃ b, s.stack = b :: t.stack := by
  obtain rfl | rfl | ⟨r, rfl⟩ := hi
  · obtain ⟨b, rest, hstack, rfl⟩ | ⟨_, rfl⟩ := execPop_next h
    · exact .inr ⟨b, by simp [hstack]⟩
    · exact .inl ⟨_, _, rfl⟩
  · obtain ⟨b, rest, hstack, rfl⟩ | ⟨_, rfl⟩ := execPrint_next h
    · exact .inr ⟨b, by simp [hstack]⟩
    · exact .inl ⟨_, _, rfl⟩
  · obtain ⟨_, b, rest, _, _, hstack, rfl⟩ | ⟨_, rfl⟩ | ⟨_, _, rfl⟩ := execStore_next h
    · exact .inr ⟨b, by simp [hstack]⟩
    all_goals exact .inl ⟨_, _, rfl⟩

/-- ADD, SUB, MUL and DIV put their result where the second entry stood and pop one (R160). -/
theorem exec_stack_replaced (hi : i = .add ∨ i = .sub ∨ i = .mul ∨ i = .div) (h : exec i s = .next t) :
    RaisedFrom s t ∨ ∃ a b r rest, s.stack = b :: a :: rest ∧ t.stack = r :: rest := by
  have hreplaced {m : Mnemonic} {a b : Word} {rest : List Word} (r : Word) (hstack : s.stack = b :: a :: rest) :
      (s.replaceTwo m r).stack = r :: rest := by
    simp [State.replaceTwo, hstack]
  obtain rfl | rfl | rfl | rfl := hi
  · obtain ⟨a, b, rest, hstack, rfl⟩ | ⟨_, rfl⟩ := execAdd_next h
    · exact .inr ⟨a, b, _, rest, hstack, hreplaced _ hstack⟩
    · exact .inl ⟨_, _, rfl⟩
  · obtain ⟨a, b, rest, hstack, rfl⟩ | ⟨_, rfl⟩ := execSub_next h
    · exact .inr ⟨a, b, _, rest, hstack, hreplaced _ hstack⟩
    · exact .inl ⟨_, _, rfl⟩
  · obtain ⟨a, b, rest, hstack, rfl⟩ | ⟨_, rfl⟩ := execMul_next h
    · exact .inr ⟨a, b, _, rest, hstack, hreplaced _ hstack⟩
    · exact .inl ⟨_, _, rfl⟩
  · obtain ⟨a, b, rest, hstack, _, rfl⟩ | ⟨_, rfl⟩ | ⟨_, _, _, rfl⟩ := execDiv_next h
    · exact .inr ⟨a, b, _, rest, hstack, hreplaced _ hstack⟩
    all_goals exact .inl ⟨_, _, rfl⟩

/-- Entries are counted from the bottom, so the lower part `l` of a stack holds the entries below its length. -/
theorem stackAt_lower {above l : List Word} {k : Nat} (hstack : s.stack = above ++ l) (hk : k < l.length) :
    s.stackAt k = l.reverse[k]? := by
  rw [State.stackAt, hstack, List.reverse_append, List.getElem?_append_left (by simpa using hk)]

/-- Two stacks with a common lower part have its entries in common. -/
theorem stackAt_eq_of_lower {above above' l : List Word} {k : Nat} (hs : s.stack = above ++ l)
    (ht : t.stack = above' ++ l) (hk : k < l.length) : t.stackAt k = s.stackAt k := by
  rw [stackAt_lower ht hk, stackAt_lower hs hk]

/-- Settles O17: the stack is untouched, and the rest is the frame of a fatal condition or of a commit that is neither
STORE nor PRINT. -/
theorem frameOfNopStopAndJumps : Obligations.FrameOfNopStopAndJumps := by
  intro i s t hi h
  have hstack := exec_stack_unchanged hi h
  have hstore (j : Nat) : i ≠ .store j := by obtain rfl | rfl | ⟨a, rfl | rfl | rfl⟩ := hi <;> simp
  have hprint : i ≠ .print := by obtain rfl | rfl | ⟨a, rfl | rfl | rfl⟩ := hi <;> simp
  obtain ⟨k, info, rfl⟩ | hcommit := exec_effect h
  · exact ⟨⟨rfl, fun _ => rfl⟩, hstack, rfl, rfl, .inr (.inr ⟨k, info, rfl⟩)⟩
  · refine ⟨hcommit.sameBuffer, hstack, hcommit.registers_of_ne_store hstore, hcommit.out_of_ne_print hprint, ?_⟩
    by_cases hstop : i = .stop
    · subst hstop
      exact .inr (.inl ⟨rfl, hcommit.status_of_stop, hcommit.faultKind, hcommit.faultPc, hcommit.faultInfo⟩)
    · exact .inl (hcommit.sameControl hstop)

/-- Settles O18: a commit that is neither STORE, PRINT nor STOP, with one word above the stack as it was. -/
theorem frameOfPushAndLoad : Obligations.FrameOfPushAndLoad := by
  intro i s t hi h
  obtain hraised | ⟨w, hstack⟩ := exec_stack_pushed hi h
  · exact .inl hraised
  obtain hraised | hcommit := exec_effect h
  · exact .inl hraised
  have hstore (j : Nat) : i ≠ .store j := by obtain ⟨v, rfl | rfl⟩ := hi <;> simp
  have hprint : i ≠ .print := by obtain ⟨v, rfl | rfl⟩ := hi <;> simp
  have hstop : i ≠ .stop := by obtain ⟨v, rfl | rfl⟩ := hi <;> simp
  refine .inr ⟨hcommit.sameBuffer, hcommit.sameControl hstop, hcommit.registers_of_ne_store hstore,
    hcommit.out_of_ne_print hprint, by rw [State.sp, hstack]; rfl, fun k hk => ?_⟩
  exact stackAt_eq_of_lower (above := []) (above' := [w]) rfl hstack hk

/-- Settles O19: a commit that is not STOP, with the stack as it was but for its top. -/
theorem frameOfPopStoreAndPrint : Obligations.FrameOfPopStoreAndPrint := by
  intro i s t hi h
  obtain hraised | ⟨b, hstack⟩ := exec_stack_popped hi h
  · exact .inl hraised
  obtain hraised | hcommit := exec_effect h
  · exact .inl hraised
  have hstop : i ≠ .stop := by obtain rfl | rfl | ⟨r, rfl⟩ := hi <;> simp
  refine .inr ⟨hcommit.sameBuffer, hcommit.sameControl hstop, by rw [State.sp, hstack]; rfl, fun k hk => ?_,
    hcommit.bank, fun _ => hcommit.register_of_ne_store, hcommit.out_of_ne_print⟩
  exact stackAt_eq_of_lower (above := [b]) (above' := []) hstack rfl hk

/-- Settles O20: a commit that is neither STORE, PRINT nor STOP, with the stack as it was below the second entry. -/
theorem frameOfArithmetic : Obligations.FrameOfArithmetic := by
  intro i s t hi h
  obtain hraised | ⟨a, b, r, rest, hs, ht⟩ := exec_stack_replaced hi h
  · exact .inl hraised
  obtain hraised | hcommit := exec_effect h
  · exact .inl hraised
  have hstore (j : Nat) : i ≠ .store j := by obtain rfl | rfl | rfl | rfl := hi <;> simp
  have hprint : i ≠ .print := by obtain rfl | rfl | rfl | rfl := hi <;> simp
  have hstop : i ≠ .stop := by obtain rfl | rfl | rfl | rfl := hi <;> simp
  have hspBefore : s.sp = rest.length + 2 := by rw [State.sp, hs]; rfl
  have hspAfter : t.sp = rest.length + 1 := by rw [State.sp, ht]; rfl
  refine .inr ⟨hcommit.sameBuffer, hcommit.sameControl hstop, hcommit.registers_of_ne_store hstore,
    hcommit.out_of_ne_print hprint, by omega, by omega, fun k hk => ?_⟩
  exact stackAt_eq_of_lower (above := [b, a]) (above' := [r]) hs ht (by omega)

/-! The frames over every step. -/

/-- Settles O21: a fatal condition changes no register, and of the commits only STORE changes one. -/
theorem onlyStoreChangesARegister : Obligations.OnlyStoreChangesARegister := by
  intro s t j hstep hchanged
  obtain ⟨k, info, rfl⟩ | ⟨i, next, hdecode, _, hcommit⟩ := step_effect hstep
  · exact absurd rfl hchanged
  · obtain ⟨rfl, hvalue⟩ := hcommit.register j hchanged
    exact ⟨next, hdecode, hvalue⟩

/-- Settles O22: a fatal condition emits nothing, and of the commits only PRINT does. -/
theorem onlyPrintChangesTheOutput : Obligations.OnlyPrintChangesTheOutput := by
  intro s t hstep hchanged
  obtain ⟨k, info, rfl⟩ | ⟨i, next, hdecode, _, hcommit⟩ := step_effect hstep
  · exact absurd rfl hchanged
  · obtain ⟨rfl, b, htop, hout⟩ := hcommit.output hchanged
    exact ⟨next, b, hdecode, htop, hout⟩

/-- Settles O33: a fatal condition leaves the core FAULTED, and a commit leaves it as STOP or as any other instruction
does. -/
theorem onlyStopHalts : Obligations.OnlyStopHalts := by
  intro s t hrun hstep
  constructor
  · intro hhalted
    obtain ⟨k, info, rfl⟩ | ⟨i, next, hdecode, _, hcommit⟩ := step_effect hstep
    · cases hhalted
    · obtain ⟨_, hstatus⟩ | ⟨rfl, _⟩ := hcommit.status
      · rw [hstatus, hrun] at hhalted
        cases hhalted
      · exact ⟨next, hdecode⟩
  · rintro ⟨next, hdecode⟩
    rw [step_running hrun, hdecode] at hstep
    rw [execStop_next hstep, State.halt_status]

/-- The operand of a decoded instruction is below the upper end of its field's signed range (R94). -/
theorem decode_operand_lt {c : Config} {buf : Memory} {pc0 next : Nat} {v : Int}
    (hdecode : decode c buf pc0 = .inst i next) (hoperand : i.operand = some v) :
    v < 2 ^ (8 * i.mnemonic.width c - 1) :=
  (fitsSigned_iff.mp ((Instr.wellFormed_iff c i).mp (decode_inst_wellFormed hdecode) v hoperand)).2

/-- A decoded jump names a target below 32768: its immediate has at most two bytes (R81, R84). -/
theorem decode_target_lt {c : Config} {buf : Memory} {pc0 next : Nat} {a : Int}
    (hdecode : decode c buf pc0 = .inst i next) (hi : i = .jmp a ∨ i = .jz a ∨ i = .jnz a) : a < 32768 := by
  obtain rfl | rfl | rfl := hi
  · exact decode_operand_lt hdecode rfl
  · exact decode_operand_lt hdecode rfl
  · have hwidth : 8 * Mnemonic.width c .jnz - 1 ≤ 15 := by
      have hle := (Mnemonic.width_jnz c).2
      omega
    exact lt_of_lt_of_le (decode_operand_lt hdecode rfl) (pow_le_pow_right₀ (by norm_num) hwidth)

/-- Settles O34: the immediate of a jump has at most 16 bits and that of STORE 8, both read as signed numbers. -/
theorem immediateRangesBoundTargetsAndRegisters : Obligations.ImmediateRangesBoundTargetsAndRegisters := by
  intro s t _ hstep
  refine ⟨fun hstays => ?_, fun j hj => ?_⟩
  · obtain ⟨k, info, rfl⟩ | ⟨i, next, hdecode, _, hcommit⟩ := step_effect hstep
    · cases hstays
    · obtain hip | ⟨a, hjump, _, hip⟩ := hcommit.ip
      · rw [hip, ← (decodeHere_next hdecode).1]
        exact .inr ⟨i, hdecode⟩
      · have htarget := decode_target_lt hdecode hjump
        exact .inl (by omega)
  · by_contra hchanged
    obtain ⟨next, hdecode, _⟩ := onlyStoreChangesARegister s t j hstep hchanged
    have hindex : (j : Int) < 128 := decode_operand_lt (i := .store j) (c := s.cfg) hdecode rfl
    omega

end Sys2Proof.Machine

/-! PROOF. The priority of the fatal conditions (spec/60_exceptions.md R200): each check of an instruction raises the next
row of the table or passes, so an instruction that nests its checks in the table's order raises its first row. -/

namespace Sys2Proof.Machine

variable {s t : State}

/-- The answer `r` agrees with a table: it is the fatal condition of the table's first row that holds, and where none holds
it is a next state that is not FAULTED. -/
def Agrees (s : State) (rows : List PriorityRow) (r : Result) : Prop :=
  match rows.find? (fun row => row.holds) with
  | some row => r = .next (s.faultedWith row.kind row.info)
  | none     => ∃ t, r = .next t ∧ t.status ≠ .faulted

namespace Agrees

variable {rows : List PriorityRow} {row : PriorityRow} {r : Result}

theorem of_commit (hstatus : t.status ≠ .faulted) : Agrees s [] (.next t) := ⟨t, rfl, hstatus⟩

/-- The first row that holds is raised, whatever the rows after it. -/
theorem of_holds (hholds : row.holds = true) (hr : r = .next (s.faultedWith row.kind row.info)) :
    Agrees s (row :: rows) r := by
  rw [Agrees, List.find?_cons_of_pos hholds]
  exact hr

/-- A row that does not hold is passed over. -/
theorem skip (hpass : row.holds = false) (h : Agrees s rows r) : Agrees s (row :: rows) r := by
  rw [Agrees, List.find?_cons_of_neg (by simp [hpass])]
  exact h

/-- A check that raises its row when the row holds, and otherwise goes on with the rows after it. -/
theorem check (hholds : row.holds = true → r = .next (s.faultedWith row.kind row.info))
    (hpass : row.holds = false → Agrees s rows r) : Agrees s (row :: rows) r := by
  cases hrow : row.holds with
  | true => exact .of_holds hrow (hholds hrow)
  | false => exact .skip hrow (hpass hrow)

/-! One rule per check of Machine/Operands.lean, for the row of `instrRows` that is its own. `b`, or `n`, is the row's
column for the instruction: whether it makes the check, or how many entries it needs. -/

theorem needRegister {imm : Int} {k : Nat → Result} {b : Bool} (hb : b = true) (hk : ∀ i, Agrees s rows (k i)) :
    Agrees s
      ({ holds := b && (decide (imm < 0) || decide (s.cfg.nregs ≤ imm)), kind := .invalidRegister, info := imm } :: rows)
      (needRegister imm s k) := by
  subst hb
  refine .check (fun hholds => ?_) fun hpass => ?_
  · rw [Bool.true_and, Bool.or_eq_true, decide_eq_true_eq, decide_eq_true_eq] at hholds
    exact needRegister_fail k (by omega)
  · rw [Bool.true_and, Bool.or_eq_false_iff, decide_eq_false_iff_not, decide_eq_false_iff_not] at hpass
    rw [needRegister_pass k (by omega)]
    exact hk _

theorem needTarget {imm : Int} {k : Nat → Result} {b : Bool} (hb : b = true) (hk : ∀ i, Agrees s rows (k i)) :
    Agrees s
      ({ holds := b && (decide (imm < 0) || decide (s.cfg.maxInsts ≤ imm)), kind := .invalidAddress, info := imm } :: rows)
      (needTarget imm s k) := by
  subst hb
  refine .check (fun hholds => ?_) fun hpass => ?_
  · rw [Bool.true_and, Bool.or_eq_true, decide_eq_true_eq, decide_eq_true_eq] at hholds
    exact needTarget_fail k (by omega)
  · rw [Bool.true_and, Bool.or_eq_false_iff, decide_eq_false_iff_not, decide_eq_false_iff_not] at hpass
    rw [needTarget_pass k (by omega)]
    exact hk _

theorem needRoom {b : Bool} (hb : b = true) (h : Agrees s rows r) :
    Agrees s ({ holds := b && decide (s.cfg.stackSize ≤ s.sp), kind := .resourceExhausted, info := 0 } :: rows)
      (needRoom s r) := by
  subst hb
  refine .check (fun hholds => ?_) fun hpass => ?_
  · exact needRoom_fail r (by simpa using hholds)
  · rw [needRoom_pass r (by simpa using hpass)]
    exact h

theorem needTop {k : Word → Result} {n : Nat} (hn : n = 1) (hk : ∀ b, Agrees s rows (k b)) :
    Agrees s ({ holds := decide (s.sp < n), kind := .resourceUnderflow, info := 0 } :: rows) (needTop s k) := by
  subst hn
  cases hstack : s.stack with
  | nil => exact .of_holds (by simp [State.sp_eq, hstack]) (needTop_fail k hstack)
  | cons b rest =>
    rw [needTop_pass k hstack]
    exact .skip (by simp [State.sp_eq, hstack]) (hk b)

theorem needTwo {k : Word → Word → Result} {n : Nat} (hn : n = 2) (hk : ∀ a b, s.top = some b → Agrees s rows (k a b)) :
    Agrees s ({ holds := decide (s.sp < n), kind := .resourceUnderflow, info := 0 } :: rows) (needTwo s k) := by
  subst hn
  refine .check (fun hholds => ?_) fun hpass => ?_
  · exact needTwo_fail k (by simpa using hholds)
  · rw [decide_eq_false_iff_not] at hpass
    match hstack : s.stack with
    | [] => simp [State.sp_eq, hstack] at hpass
    | [_] => simp [State.sp_eq, hstack] at hpass
    | b :: a :: rest =>
      rw [needTwo_pass k hstack]
      exact hk a b (by rw [State.top, hstack]; rfl)

theorem needNonzero {divisor : Word} {b : Bool} (hb : b = true) (htop : s.top = some divisor) (h : Agrees s rows r) :
    Agrees s ({ holds := b && s.stack.head? == some 0#32, kind := .arithmeticFault, info := 0 } :: rows)
      (needNonzero divisor s r) := by
  subst hb
  rw [State.top] at htop
  refine .check (fun hholds => ?_) fun hpass => ?_
  · exact needNonzero_fail r (by simpa [htop] using hholds)
  · rw [needNonzero_pass r (by simpa [htop] using hpass)]
    exact h

end Agrees

theorem branch_status (m : Mnemonic) (taken : Bool) (n : Nat) (s : State) : (s.branch m taken n).status = s.status := by
  cases taken <;> rfl

/-- No instruction needs fewer than no entries. -/
theorem decide_sp_lt_zero (s : State) : decide (s.sp < 0) = false := decide_eq_false (Nat.not_lt_zero s.sp)

/-- Every instruction raises the first of its rows that holds (R116, R200). -/
theorem exec_agrees (m : Mnemonic) (imm : Int) (hstatus : s.status ≠ .faulted) :
    Agrees s (instrRows m imm s) (exec (Instr.build m imm) s) := by
  have hdepth := decide_sp_lt_zero s
  cases m with
  | nop => exact .skip rfl (.skip rfl (.skip rfl (.skip hdepth (.skip rfl (.of_commit hstatus)))))
  | stop => exact .skip rfl (.skip rfl (.skip rfl (.skip hdepth (.skip rfl (.of_commit (by simp))))))
  | push => exact .skip rfl (.skip rfl (.needRoom rfl (.skip hdepth (.skip rfl (.of_commit hstatus)))))
  | load =>
    change Agrees s _ (exec (.load imm) s)
    rw [exec_load]
    exact .needRegister rfl fun _ => .skip rfl (.needRoom rfl (.skip hdepth (.skip rfl (.of_commit hstatus))))
  | store =>
    change Agrees s _ (exec (.store imm) s)
    rw [exec_store]
    exact .needRegister rfl fun _ => .skip rfl (.skip rfl (.needTop rfl fun _ => .skip rfl (.of_commit hstatus)))
  | jmp =>
    change Agrees s _ (exec (.jmp imm) s)
    rw [exec_jmp]
    exact .skip rfl (.needTarget rfl fun _ => .skip rfl (.skip hdepth (.skip rfl (.of_commit hstatus))))
  | jz =>
    change Agrees s _ (exec (.jz imm) s)
    rw [exec_jz]
    exact .skip rfl (.needTarget rfl fun _ => .skip rfl (.needTop rfl fun b => .skip rfl
      (.of_commit ((branch_status _ _ _ s).trans_ne hstatus))))
  | jnz =>
    change Agrees s _ (exec (.jnz imm) s)
    rw [exec_jnz]
    exact .skip rfl (.needTarget rfl fun _ => .skip rfl (.needTop rfl fun b => .skip rfl
      (.of_commit ((branch_status _ _ _ s).trans_ne hstatus))))
  | pop => exact .skip rfl (.skip rfl (.skip rfl (.needTop rfl fun _ => .skip rfl (.of_commit hstatus))))
  | print => exact .skip rfl (.skip rfl (.skip rfl (.needTop rfl fun _ => .skip rfl (.of_commit hstatus))))
  | add => exact .skip rfl (.skip rfl (.skip rfl (.needTwo rfl fun _ _ _ => .skip rfl (.of_commit hstatus))))
  | sub => exact .skip rfl (.skip rfl (.skip rfl (.needTwo rfl fun _ _ _ => .skip rfl (.of_commit hstatus))))
  | mul => exact .skip rfl (.skip rfl (.skip rfl (.needTwo rfl fun _ _ _ => .skip rfl (.of_commit hstatus))))
  | div =>
    exact .skip rfl (.skip rfl (.skip rfl (.needTwo rfl fun _ _ htop => .needNonzero rfl htop (.of_commit hstatus))))

/-- A recognised opcode whose immediate is in the buffer is run with that immediate (R110 to R115). -/
theorem step_of_whole {m : Mnemonic} (hrun : s.status = .running) (hopcode : s.opcodeAt s.ip = some m)
    (hwhole : s.ip + 1 + m.width s.cfg ≤ s.cfg.maxInsts) :
    step s = exec (Instr.build m (immediateAt s.cfg s.instructions s.ip m)) s := by
  have hdecode : s.decodeHere = _ :=
    decode_of_whole (by omega) hopcode (Nat.add_assoc s.ip 1 (m.width s.cfg) ▸ hwhole)
  rw [step_running hrun, hdecode]
  rfl

/-- The step agrees with the whole table: its first three phases raise the first two rows, or the unrecognised opcode, and
the instruction raises the others (R200). -/
theorem step_agrees (hrun : s.status = .running) : Agrees s (priorityTable s) (step s) := by
  refine .check (fun hbeyond => ?_) fun hinside => ?_
  · exact step_beyond_buffer hrun (of_decide_eq_true hbeyond)
  have hbound : s.ip < s.cfg.maxInsts := Nat.lt_of_not_le (of_decide_eq_false hinside)
  cases hopcode : s.opcodeAt s.ip with
  | none => exact .of_holds rfl (step_unknown_opcode hrun hbound (OpcodeMap.mnemonicOf_none.mp hopcode))
  | some m =>
    refine .check (fun hcut => ?_) fun hwhole => ?_
    · exact step_cut_instruction hrun hbound hopcode
        (Nat.add_assoc s.ip 1 (m.width s.cfg) ▸ of_decide_eq_true hcut)
    · rw [step_of_whole hrun hopcode (Nat.le_of_not_lt (of_decide_eq_false hwhole))]
      exact exec_agrees m _ (by simp [hrun])

/-- Settles O32: the agreement of the step with the table, read for a first row and for none. -/
theorem stepRaisesTheFirstConditionOfTheTable : Obligations.StepRaisesTheFirstConditionOfTheTable := by
  intro s hrun
  have hagrees := step_agrees hrun
  unfold Agrees at hagrees
  refine ⟨fun row hrow => ?_, fun hnone => ?_⟩
  · rw [firstFatal] at hrow
    rw [hrow] at hagrees
    exact hagrees
  · rw [firstFatal] at hnone
    rw [hnone] at hagrees
    exact hagrees

end Sys2Proof.Machine

/-! PROOF. The causes of the fatal conditions (spec/60_exceptions.md R191, R195): what is known of a state in which the step
raises one, read off the priority table, and from it what the fault record says. -/

namespace Sys2Proof.Machine

variable {s t : State}

/-- Why a step in `s` raises a fatal condition, with its kind and information: one constructor per row of the priority
table. -/
inductive Cause (s : State) : FatalKind → Int → Prop where
  | fetchBound (hbeyond : s.cfg.maxInsts ≤ s.ip) : Cause s .invalidAddress s.ip
  | opcode (hbound : s.ip < s.cfg.maxInsts) (hopcode : s.opcodeAt s.ip = none) :
      Cause s .invalidOpcode (Memory.read s.instructions s.ip).toNat
  | extent {m : Mnemonic} (hbound : s.ip < s.cfg.maxInsts) (hopcode : s.opcodeAt s.ip = some m)
      (hcut : s.cfg.maxInsts < s.ip + 1 + m.width s.cfg) : Cause s .invalidAddress (s.ip + m.width s.cfg : Nat)
  | register {m : Mnemonic} (hopcode : s.opcodeAt s.ip = some m) (hnames : namesRegister m = true)
      (houtside : immediateAt s.cfg s.instructions s.ip m < 0 ∨ s.cfg.nregs ≤ immediateAt s.cfg s.instructions s.ip m) :
      Cause s .invalidRegister (immediateAt s.cfg s.instructions s.ip m)
  | target {m : Mnemonic} (hbound : s.ip < s.cfg.maxInsts) (hopcode : s.opcodeAt s.ip = some m)
      (hwhole : s.ip + m.len s.cfg ≤ s.cfg.maxInsts) (hnames : namesTarget m = true)
      (houtside : immediateAt s.cfg s.instructions s.ip m < 0 ∨ s.cfg.maxInsts ≤ immediateAt s.cfg s.instructions s.ip m) :
      Cause s .invalidAddress (immediateAt s.cfg s.instructions s.ip m)
  | room {m : Mnemonic} (hopcode : s.opcodeAt s.ip = some m) (hpushes : pushes m = true)
      (hfull : s.cfg.stackSize ≤ s.sp) : Cause s .resourceExhausted 0
  | depth {m : Mnemonic} (hopcode : s.opcodeAt s.ip = some m) (hshort : s.sp < entriesNeeded m) :
      Cause s .resourceUnderflow 0
  | divisor (hopcode : s.opcodeAt s.ip = some .div) (hdepth : 2 ≤ s.sp) (hzero : s.stack.head? = some 0#32) :
      Cause s .arithmeticFault 0

/-- The first row of an instruction is the cause of its fatal condition; the row before that of the divisor is the depth,
which has then been checked. -/
theorem Cause.of_instrRows {m : Mnemonic} {row : PriorityRow} (hbound : s.ip < s.cfg.maxInsts)
    (hopcode : s.opcodeAt s.ip = some m) (hwhole : s.ip + m.len s.cfg ≤ s.cfg.maxInsts)
    (hrow : (instrRows m (immediateAt s.cfg s.instructions s.ip m) s).find? (fun row => row.holds) = some row) :
    Cause s row.kind row.info := by
  simp only [instrRows, List.find?_cons_eq_some, List.find?_nil, Bool.and_eq_true, Bool.or_eq_true, decide_eq_true_eq,
    beq_iff_eq] at hrow
  obtain ⟨⟨hnames, houtside⟩, rfl⟩ | ⟨_, ⟨⟨hnames, houtside⟩, rfl⟩ | ⟨_, ⟨⟨hpushes, hfull⟩, rfl⟩ |
    ⟨_, ⟨hshort, rfl⟩ | ⟨hdepth, ⟨⟨hdiv, hzero⟩, rfl⟩ | ⟨_, hnone⟩⟩⟩⟩⟩ := hrow
  · exact .register hopcode hnames houtside
  · exact .target hbound hopcode hwhole hnames houtside
  · exact .room hopcode hpushes hfull
  · exact .depth hopcode hshort
  · subst hdiv
    exact .divisor hopcode (Nat.succ_le_iff.mpr (by simpa [entriesNeeded] using hdepth)) hzero
  · cases hnone

/-- The first row of the priority table is the cause of the step's fatal condition (R200). -/
theorem Cause.of_firstFatal {row : PriorityRow} (hrow : firstFatal s = some row) : Cause s row.kind row.info := by
  rw [firstFatal, priorityTable, List.find?_cons_eq_some] at hrow
  obtain ⟨hbeyond, rfl⟩ | ⟨hinside, hrow⟩ := hrow
  · exact .fetchBound (of_decide_eq_true hbeyond)
  have hbound : s.ip < s.cfg.maxInsts := by simpa using hinside
  cases hopcode : s.opcodeAt s.ip with
  | none =>
    rw [hopcode] at hrow
    cases hrow
    exact .opcode hbound hopcode
  | some m =>
    rw [hopcode] at hrow
    obtain ⟨hcut, rfl⟩ | ⟨hwhole, hrow⟩ := List.find?_cons_eq_some.mp hrow
    · exact .extent hbound hopcode (of_decide_eq_true hcut)
    · have hfits : s.ip + 1 + m.width s.cfg ≤ s.cfg.maxInsts := by simpa using hwhole
      exact .of_instrRows hbound hopcode (Nat.add_assoc s.ip 1 (m.width s.cfg) ▸ hfits) hrow

/-- A step that ends FAULTED has a cause, and changed nothing but `status` and the record (R118). -/
theorem step_faulted_cause (hrun : s.status = .running) (hstep : step s = .next t) (hfault : t.status = .faulted) :
    ∃ k info, t = s.faultedWith k info ∧ Cause s k info := by
  obtain ⟨hraises, hcommits⟩ := stepRaisesTheFirstConditionOfTheTable s hrun
  cases hrow : firstFatal s with
  | none =>
    obtain ⟨u, hu, hnot⟩ := hcommits hrow
    obtain rfl : t = u := Host.Outcome.next.inj (hstep.symm.trans hu)
    exact absurd hfault hnot
  | some row =>
    exact ⟨_, _, Host.Outcome.next.inj (hstep.symm.trans (hraises row hrow)), .of_firstFatal hrow⟩

/-- Settles O30: a step that ends FAULTED has a cause, and no cause is that of a failed load. -/
theorem raisingWritesOnlyStatusAndRecord : Obligations.RaisingWritesOnlyStatusAndRecord := by
  intro s t hrun hstep hfault
  obtain ⟨k, info, rfl, hcause⟩ := step_faulted_cause hrun hstep hfault
  refine ⟨k, info, rfl, ?_⟩
  rintro rfl
  cases hcause

/-- A register index is an immediate of one byte, read as a signed number (R81, R84). -/
theorem registerImmediate_range {c : Config} (buf : Memory) (pc0 : Nat) {m : Mnemonic} (hnames : namesRegister m = true) :
    -128 ≤ immediateAt c buf pc0 m ∧ immediateAt c buf pc0 m ≤ 127 := by
  have hwidth : m.width c = 1 := by cases m <;> cases hnames <;> rfl
  obtain ⟨hlow, hhigh, _⟩ := immediateAt_spec buf pc0 hwidth one_pos
  norm_num at hlow hhigh
  omega

/-- A target is an immediate of at most two bytes, read as a signed number (R81, R84). -/
theorem targetImmediate_range {c : Config} (buf : Memory) (pc0 : Nat) {m : Mnemonic} (hnames : namesTarget m = true) :
    -32768 ≤ immediateAt c buf pc0 m ∧ immediateAt c buf pc0 m ≤ 32767 := by
  have hwidth : m.width c = 1 ∨ m.width c = 2 := by
    have hjnz := Mnemonic.width_jnz c
    cases m <;> cases hnames
    case jnz => omega
    all_goals exact .inr rfl
  obtain hw | hw := hwidth
  · obtain ⟨hlow, hhigh, _⟩ := immediateAt_spec buf pc0 hw one_pos
    norm_num at hlow hhigh
    omega
  · obtain ⟨hlow, hhigh, _⟩ := immediateAt_spec buf pc0 hw two_pos
    norm_num at hlow hhigh
    omega

/-- In a state whose stack is within its capacity, the record of a fatal condition is the row of its cause (R191). -/
theorem Cause.recordFits {k : FatalKind} {info : Int} (hcause : Cause s k info) (hsp : s.sp ≤ s.cfg.stackSize) :
    (s.faultedWith k info).RecordFits k := by
  cases hcause with
  | fetchBound hbeyond => exact ⟨rfl, .inl ⟨hbeyond, rfl⟩⟩
  | opcode _ hopcode => exact ⟨rfl, rfl, hopcode⟩
  | @extent m hbound hopcode hcut =>
    refine ⟨rfl, .inr (.inl ⟨hbound, ?_, m, hopcode, Nat.cast_add _ _⟩)⟩
    rw [State.faultedWith_cfg, State.faultedWith_faultInfo]
    omega
  | @register m hopcode hnames houtside =>
    obtain ⟨hlow, hhigh⟩ := registerImmediate_range (c := s.cfg) s.instructions s.ip hnames
    refine ⟨rfl, ?_, m, hopcode, hnames, rfl⟩
    rw [State.faultedWith_cfg, State.faultedWith_faultInfo]
    omega
  | @target m hbound hopcode _ hnames houtside =>
    obtain ⟨hlow, hhigh⟩ := targetImmediate_range (c := s.cfg) s.instructions s.ip hnames
    refine ⟨rfl, .inr (.inr ⟨hbound, ?_, m, hopcode, hnames, rfl⟩)⟩
    rw [State.faultedWith_cfg, State.faultedWith_faultInfo]
    omega
  | @room m hopcode hpushes hfull => exact ⟨rfl, rfl, hsp.antisymm hfull, m, hopcode, hpushes⟩
  | @depth m hopcode hshort => exact ⟨rfl, rfl, m, hopcode, hshort⟩
  | divisor hopcode hdepth hzero => exact ⟨rfl, rfl, hopcode, hdepth, hzero⟩

/-- Settles O38: the record of a step that ends FAULTED fits its cause; the invariant bounds the stack. -/
theorem faultRecordFitsItsCause : Obligations.FaultRecordFitsItsCause := by
  intro s t hinv hrun hstep hfault
  obtain ⟨k, info, rfl, hcause⟩ := step_faulted_cause hrun hstep hfault
  exact ⟨k, rfl, hcause.recordFits hinv.spBound⟩

/-- Settles O39: of the three causes of InvalidAddress each makes the decoder give its own answer, and `fault_pc` and
`fault_info` are compared with MAX_INSTS in each. -/
theorem invalidAddressCausesAreToldApart : Obligations.InvalidAddressCausesAreToldApart := by
  intro s t hrun hstep hfault hkind
  obtain ⟨k, info, rfl, hcause⟩ := step_faulted_cause hrun hstep hfault
  obtain rfl : k = .invalidAddress := Option.some.inj hkind
  cases hcause with
  | fetchBound hbeyond =>
    have hdecode : s.decodeHere = .fetchOutOfRange := decode_of_beyond hbeyond
    have hpc : ¬s.ip < s.cfg.maxInsts := Nat.not_lt.mpr hbeyond
    exact ⟨iff_of_true hdecode hbeyond, iff_of_false (by simp [hdecode]) fun h => hpc h.1,
      iff_of_false (by simp [hdecode]) fun h => hpc h.1⟩
  | @extent m hbound hopcode hcut =>
    have hdecode : s.decodeHere = .extentOutOfRange m :=
      decode_of_cut hbound hopcode (Nat.add_assoc s.ip 1 (m.width s.cfg) ▸ hcut)
    have hextent : (s.faultedWith .invalidAddress (s.ip + m.width s.cfg : Nat)).causeExtent :=
      ⟨hbound, by simp only [State.faultedWith_cfg, State.faultedWith_faultInfo]; omega, m, hopcode, Nat.cast_add _ _⟩
    exact ⟨iff_of_false (by simp [hdecode]) hbound.not_ge, iff_of_true ⟨m, hdecode⟩ hextent,
      iff_of_false (by simp [hdecode]) fun h => h.2 hextent⟩
  | @target m hbound hopcode hwhole hnames houtside =>
    have hdecode : s.decodeHere = _ := decode_of_whole hbound hopcode hwhole
    have hextent : ¬(s.faultedWith .invalidAddress (immediateAt s.cfg s.instructions s.ip m)).causeExtent := by
      rintro ⟨_, hlarge, m', hopcode', hinfo⟩
      obtain rfl : m = m' := Option.some.inj (hopcode.symm.trans hopcode')
      have hlen : m.len s.cfg = 1 + m.width s.cfg := rfl
      simp only [State.faultedWith_cfg, State.faultedWith_faultInfo, State.faultedWith_faultPc] at hlarge hinfo
      omega
    exact ⟨iff_of_false (by simp [hdecode]) hbound.not_ge, iff_of_false (by simp [hdecode]) hextent,
      iff_of_true ⟨_, _, hdecode⟩ ⟨hbound, hextent⟩⟩

/-- The immediate of one byte that is 0x80 or more is that byte less 2^8 (R83, R84). -/
theorem immediateAt_of_high_byte {c : Config} {buf : Memory} {pc0 : Nat} {m : Mnemonic} (hwidth : m.width c = 1)
    (hhigh : 0x80 ≤ (Memory.read buf (pc0 + 1)).toNat) :
    immediateAt c buf pc0 m = (Memory.read buf (pc0 + 1)).toNat - 256 := by
  obtain ⟨hlow, hup, hresidue⟩ := immediateAt_spec buf pc0 hwidth one_pos
  norm_num [Memory.readLE] at hlow hup hresidue
  omega

/-- The immediate of two bytes of which the second is 0x80 or more is their number less 2^16 (R83, R84). -/
theorem immediateAt_of_high_halfword {c : Config} {buf : Memory} {pc0 : Nat} {m : Mnemonic} (hwidth : m.width c = 2)
    (hhigh : 0x80 ≤ (Memory.read buf (pc0 + 2)).toNat) :
    immediateAt c buf pc0 m =
      (Memory.read buf (pc0 + 1)).toNat + 256 * (Memory.read buf (pc0 + 2)).toNat - 65536 := by
  obtain ⟨hlow, hup, hresidue⟩ := immediateAt_spec buf pc0 hwidth two_pos
  have hnumber : Memory.readLE buf (pc0 + 1) 2 =
      (Memory.read buf (pc0 + 1)).toNat + 256 * (Memory.read buf (pc0 + 2)).toNat := rfl
  norm_num [hnumber] at hlow hup hresidue
  omega

/-- Settles O44: a high byte of 0x80 or more makes the immediate negative, which the first check of each of the four
instructions refuses. -/
theorem negativeIndexOrTargetFaults : Obligations.NegativeIndexOrTargetFaults := by
  intro s m hrun hopcode hwhole
  rw [step_of_whole hrun hopcode hwhole]
  have hbyte (a : Nat) : (Memory.read s.instructions a).toNat < 256 := (Memory.read s.instructions a).isLt
  have hlow := hbyte (s.ip + 1)
  have hhigh := hbyte (s.ip + 2)
  refine ⟨?_, ?_⟩
  · rintro (rfl | rfl) hnegative
    · rw [immediateAt_of_high_byte rfl hnegative, Instr.build, exec_load, needRegister_fail _ (by omega)]
    · rw [immediateAt_of_high_byte rfl hnegative, Instr.build, exec_store, needRegister_fail _ (by omega)]
  · rintro (rfl | rfl) hnegative
    · rw [immediateAt_of_high_halfword rfl hnegative, Instr.build, exec_jmp, needTarget_fail _ (by omega)]
    · rw [immediateAt_of_high_halfword rfl hnegative, Instr.build, exec_jz, needTarget_fail _ (by omega)]

/-- Settles O24: the step runs what the decoder answers, which has its extent in the buffer and is well-formed. -/
theorem stepRunsTheDecodedInstruction : Obligations.StepRunsTheDecodedInstruction := by
  intro s i next hrun hdecode
  obtain ⟨hnext, hextent⟩ := decodeHere_next hdecode
  refine ⟨?_, hnext.trans (Nat.add_assoc s.ip 1 _).symm, hextent, decode_inst_wellFormed hdecode⟩
  rw [step_running hrun, State.decodeHere, hdecode]
  rfl

/-- Settles O25: the decoder answers that the fetch is out of range. -/
theorem fetchBeyondTheBufferIsInvalidAddress : Obligations.FetchBeyondTheBufferIsInvalidAddress :=
  fun _ => step_beyond_buffer

/-- Settles O27: the decoder answers that the extent is out of range before it reads an immediate byte. -/
theorem cutInstructionIsInvalidAddress : Obligations.CutInstructionIsInvalidAddress :=
  fun s m hrun hbound hopcode hcut =>
    step_cut_instruction hrun hbound hopcode (Nat.add_assoc s.ip 1 (m.width s.cfg) ▸ hcut)

end Sys2Proof.Machine

/-! PROOF. The instructions LOAD, JZ, JNZ and STOP (spec/42_register_ops.md, spec/43_control_transfer.md,
spec/45_output_halt.md R181), and two pairs of instructions that undo each other (spec/95_test_vectors.md S6, S7). -/

namespace Sys2Proof.Machine

variable {s : State}

/-- With both checks of LOAD passed, the register's word is on the stack (R140). -/
theorem exec_load_commit {i : Nat} {v : Word} (hi : i < s.cfg.nregs) (hreg : s.registers[i]? = some v)
    (hroom : s.sp < s.cfg.stackSize) :
    exec (.load i) s = .next { s with stack := v :: s.stack, ip := s.ip + 2 } := by
  have hindex : (0 : Int) ≤ i ∧ (i : Int) < s.cfg.nregs := by omega
  have hread : s.readReg (i : Int).toNat = v := by
    rw [State.readReg, Int.toNat_natCast, List.getD_eq_getElem?_getD, hreg]
    rfl
  rw [exec_load, needRegister_pass _ hindex, needRoom_pass _ hroom, hread]
  rfl

/-- Settles O6: LOAD checks the index before the room on the stack; its extent is checked before, by the step. -/
theorem loadPushesTheRegister : Obligations.LoadPushesTheRegister := by
  intro r s
  refine ⟨encode_of_operand s.cfg rfl, ?_, fun houtside => ?_, fun hinside hfull => ?_,
    fun hrun hbound hopcode hcut => ?_⟩
  · rintro i v rfl hi hreg hroom
    exact exec_load_commit hi hreg hroom
  · rw [exec_load, needRegister_fail _ (by omega)]
  · rw [exec_load, needRegister_pass _ hinside, needRoom_fail _ hfull.not_gt]
  · exact ⟨_, step_cut_instruction hrun hbound hopcode hcut⟩

/-- The conditional jump of JZ and JNZ: `m` is its mnemonic and `taken` its test of the top word. -/
def condJump (m : Mnemonic) (taken : Word → Bool) (a : Int) (s : State) : Result :=
  needTarget a s fun i => needTop s fun b => .next (s.branch m (taken b) i)

theorem exec_jz_eq_condJump (a : Int) (s : State) : exec (.jz a) s = condJump .jz isZero a s := rfl

theorem exec_jnz_eq_condJump (a : Int) (s : State) : exec (.jnz a) s = condJump .jnz isNonzero a s := rfl

section CondJump

variable {m : Mnemonic} {taken : Word → Bool} {a : Int} {b : Word} {rest : List Word} {i : Nat}

/-- With both checks passed the jump goes one of its two ways, and pops nothing (R151, R152). -/
theorem condJump_commit (hi : i < s.cfg.maxInsts) (hstack : s.stack = b :: rest) :
    condJump m taken i s = .next (s.branch m (taken b) i) := by
  have htarget : (0 : Int) ≤ i ∧ (i : Int) < s.cfg.maxInsts := by omega
  rw [condJump, needTarget_pass _ htarget, needTop_pass _ hstack, Int.toNat_natCast]

/-- The target is checked before the stack is looked at, whether or not the jump would be taken (D14). -/
theorem condJump_outside (houtside : a < 0 ∨ s.cfg.maxInsts ≤ a) :
    condJump m taken a s = .next (s.faultedWith .invalidAddress a) := by
  rw [condJump, needTarget_fail _ (by omega)]

theorem condJump_empty (hinside : 0 ≤ a ∧ a < s.cfg.maxInsts) (hempty : s.sp = 0) :
    condJump m taken a s = .next (s.faultedWith .resourceUnderflow 0) := by
  rw [condJump, needTarget_pass _ hinside, needTop_fail _ (List.length_eq_zero_iff.mp hempty)]

end CondJump

/-- JZ's test is of the word's signed value. -/
theorem isZero_iff (b : Word) : isZero b = true ↔ b.toInt = 0 := by
  rw [isZero, beq_iff_eq, ← BitVec.toInt_inj, BitVec.toInt_zero]

/-- JNZ's test is the opposite of JZ's. -/
theorem isNonzero_iff (b : Word) : isNonzero b = true ↔ b.toInt ≠ 0 := by
  rw [← not_iff_not, not_not, ← isZero_iff, isNonzero, isZero, bne_iff_ne, not_not, beq_iff_eq]

/-- Settles O9: JZ is a conditional jump on the word 0, of length 3. -/
theorem jzJumpsOnZeroAndDoesNotPop : Obligations.JzJumpsOnZeroAndDoesNotPop := by
  intro a s
  rw [exec_jz_eq_condJump]
  refine ⟨encode_of_operand s.cfg rfl, ?_, condJump_outside, condJump_empty, fun hrun hbound hopcode hcut => ?_⟩
  · rintro i b rest rfl hi hstack
    rw [condJump_commit hi hstack]
    refine ⟨fun hzero => ?_, fun hnonzero => ?_⟩
    · rw [(isZero_iff b).mpr hzero]
      rfl
    · rw [Bool.eq_false_iff.mpr (mt (isZero_iff b).mp hnonzero)]
      rfl
  · exact ⟨_, step_cut_instruction hrun hbound hopcode hcut⟩

/-- JNZ's bytes are its opcode and one or two bytes of its target, by its length (R90, R94). -/
theorem encode_jnz {c : Config} {len : Nat} (a : Int) (hlen : Mnemonic.len c .jnz = len) :
    encode c (.jnz a) = (c.opc.jnz :: [BitVec.ofInt 8 a, BitVec.ofInt 8 (a / 256)]).take len := by
  have hwidth : len = 1 + Mnemonic.width c .jnz := hlen.symm
  rw [encode_of_operand c rfl, hwidth]
  obtain hone | htwo : Mnemonic.width c .jnz = 1 ∨ Mnemonic.width c .jnz = 2 := by
    have hbounds := Mnemonic.width_jnz c
    omega
  · rw [Instr.mnemonic, hone]
    rfl
  · rw [Instr.mnemonic, htwo]
    rfl

/-- Settles O10: JNZ is a conditional jump on any word but 0, of length 3, or 2 under the narrow encoding. -/
theorem jnzJumpsOnNonzeroAndDoesNotPop : Obligations.JnzJumpsOnNonzeroAndDoesNotPop := by
  intro a s len hcfg
  have hlen : Mnemonic.len s.cfg .jnz = len := by
    obtain ⟨hw, rfl⟩ | ⟨hw, rfl⟩ := hcfg
    · rw [Mnemonic.len, Mnemonic.width_jnz_of_two hw]
    · rw [Mnemonic.len, Mnemonic.width_jnz_of_one hw]
  rw [exec_jnz_eq_condJump]
  refine ⟨encode_jnz a hlen, ?_, condJump_outside, condJump_empty, fun hrun hbound hopcode hcut => ?_⟩
  · rintro i b rest rfl hi hstack
    rw [condJump_commit hi hstack]
    refine ⟨fun hnonzero => ?_, fun hzero => ?_⟩
    · rw [(isNonzero_iff b).mpr hnonzero]
      rfl
    · rw [Bool.eq_false_iff.mpr fun htaken => (isNonzero_iff b).mp htaken hzero, ← hlen]
      rfl
  · exact ⟨_, step_cut_instruction hrun hbound hopcode (hlen ▸ hcut)⟩

/-- Settles O16: STOP makes no check, and in HALTED no step is taken. -/
theorem stopHaltsOnePastItself : Obligations.StopHaltsOnePastItself := by
  intro s
  exact ⟨encode_of_no_operand s.cfg rfl, exec_stop, step_stops (by simp)⟩

/-- Settles O58: PUSH finds the room, POP finds the word pushed, and their lengths are 5 and 1. -/
theorem pushThenPopRestoresTheStack : Obligations.PushThenPopRestoresTheStack := by
  intro n s hroom
  obtain ⟨_, hpush, _⟩ := pushPushesItsImmediate n s
  obtain ⟨_, hpop, _⟩ := popDropsTheTop { s with stack := BitVec.ofInt 32 n :: s.stack, ip := s.ip + 5 }
  exact ⟨_, _, hpush hroom, hpop _ _ rfl, rfl⟩

/-- Settles O59: STORE makes the room that LOAD needs, and leaves in the register the word that LOAD reads. -/
theorem storeThenLoadYieldsTheStoredValue : Obligations.StoreThenLoadYieldsTheStoredValue := by
  intro i b rest s hinv hi hstack
  have hwritten : (s.registers.set i b)[i]? = some b := List.getElem?_set_self (hinv.bank ▸ hi)
  have hroom : rest.length < s.cfg.stackSize := by
    have hbound := hinv.spBound
    rw [State.sp, hstack, List.length_cons] at hbound
    omega
  exact ⟨_, _, exec_store_commit hi hstack, exec_load_commit hi hwritten hroom, hstack.symm, hwritten, rfl⟩

end Sys2Proof.Machine

/-! PROOF. The default opcodes (spec/30_encoding.md section 3), the reset values (spec/10_state.md R41), the host's events and
what the host reads (spec/70_reset_and_hazards.md sections 1 to 3; spec/10_state.md R39). -/

namespace Sys2Proof

/-- The fourteen default opcodes are below 14. -/
theorem OpcodeMap.standard_byte_lt (m : Mnemonic) : (OpcodeMap.standard.byte m).toNat < 14 := by
  cases m <;> decide

/-- Each of the fourteen values below 14 is a default opcode. -/
theorem OpcodeMap.standard_byte_surjective : ∀ k : Fin 14, ∃ m ∈ Mnemonic.all, (OpcodeMap.standard.byte m).toNat = k := by
  decide

theorem OpcodeMap.standard_mnemonicOf_none (b : Byte) : OpcodeMap.standard.mnemonicOf b = none ↔ 14 ≤ b.toNat := by
  rw [OpcodeMap.mnemonicOf_none]
  constructor
  · intro hnone
    by_contra hlt
    obtain ⟨m, _, hm⟩ := OpcodeMap.standard_byte_surjective ⟨b.toNat, by omega⟩
    exact hnone m (BitVec.eq_of_toNat_eq hm)
  · rintro hge m rfl
    exact absurd (OpcodeMap.standard_byte_lt m) (by omega)

end Sys2Proof

namespace Sys2Proof.Machine

variable {s t : State}

/-- Settles O45: the decoder answers that the byte is unknown exactly where no mnemonic has it. -/
theorem defaultOpcodesAreZeroToThirteen : Obligations.DefaultOpcodesAreZeroToThirteen := by
  intro buf pc0 hbound
  rw [← OpcodeMap.standard_mnemonicOf_none]
  constructor
  · exact decode_of_unknown (c := Config.standard) hbound
  · intro hdecode
    obtain ⟨_, hnone, _⟩ := decode_unknown hdecode
    exact hnone

/-- Settles O46: the decoder is run on each of the thirteen words. -/
theorem writtenWordsDecode : Obligations.WrittenWordsDecode := by
  unfold Obligations.WrittenWordsDecode
  decide

/-- Settles O1: the fields of `State.resetOf`, and what is read of an empty buffer and an empty stack. -/
theorem resetLeavesTheSpecifiedValues : Obligations.ResetLeavesTheSpecifiedValues := by
  rintro c _ rfl
  have hregister (i : Nat) (hi : i < c.nregs) : (State.resetOf c).registers[i]? = some 0#32 := by
    rw [State.resetOf_registers, List.getElem?_replicate_of_lt hi]
  exact ⟨Memory.read_nil, rfl, fun _ => List.getElem?_nil, List.length_replicate, hregister, rfl, rfl, rfl, rfl, rfl⟩

/-! The events in IDLE, as equations. -/

theorem hostEvent_start_idle (hidle : s.status = .idle) : hostEvent .start s = s.started :=
  whenIdle_idle State.started hidle

theorem hostEvent_loadFail_idle (hidle : s.status = .idle) : hostEvent .loadFail s = s.loadFailed :=
  whenIdle_idle State.loadFailed hidle

/-- A program that fits is installed (R232). -/
theorem hostEvent_load_fits {prog : List Byte} (hidle : s.status = .idle) (hfits : prog.length ≤ s.cfg.maxInsts) :
    hostEvent (.load prog) s = { s with instructions := Memory.writeBytes s.instructions 0 prog } :=
  (whenIdle_idle (State.install prog) hidle).trans (if_pos hfits)

/-- A program that does not fit is a failed load (R234). -/
theorem hostEvent_load_too_long {prog : List Byte} (hidle : s.status = .idle) (hlong : s.cfg.maxInsts < prog.length) :
    hostEvent (.load prog) s = s.loadFailed :=
  (whenIdle_idle (State.install prog) hidle).trans (if_neg hlong.not_ge)

/-- Settles O47: START acts in IDLE, where it is `State.started`, and is ignored elsewhere. -/
theorem startBeginsARunAtAddressZero : Obligations.StartBeginsARunAtAddressZero := by
  refine fun s => ⟨fun hidle => ?_, fun hother => hostEvent_ignored hother (by decide)⟩
  rw [hostEvent_start_idle hidle]
  exact ⟨rfl, rfl, rfl⟩

/-- Settles O48: what consecutive writes leave, inside their range and outside it. -/
theorem loadInstallsTheBytesExactly : Obligations.LoadInstallsTheBytesExactly := by
  intro s prog hinv hidle hfits
  rw [hostEvent_load_fits hidle hfits]
  refine ⟨fun k b hk => ?_, fun a ha => ?_, rfl⟩
  · obtain ⟨hlt, hb⟩ := List.getElem?_eq_some_iff.mp hk
    rw [Memory.read_writeBytes hinv.canonical, dif_pos (by omega)]
    exact hb
  · rw [Memory.read_writeBytes hinv.canonical, dif_neg (by omega)]

/-- Settles O49: both events are `State.loadFailed`, after which no step is taken. -/
theorem failedLoadIsProgramLoadFailure : Obligations.FailedLoadIsProgramLoadFailure := by
  intro s e hidle he
  have hfailed : hostEvent e s = s.loadFailed := by
    obtain rfl | ⟨prog, rfl, hlong⟩ := he
    · exact hostEvent_loadFail_idle hidle
    · exact hostEvent_load_too_long hidle hlong
  rw [hfailed]
  exact ⟨rfl, rfl, step_stops (by simp)⟩

/-- Settles O50: the events that only IDLE accepts are ignored elsewhere, and RESET reads only the configuration. -/
theorem onlyResetActsOutsideIdle : Obligations.OnlyResetActsOutsideIdle :=
  fun s _ => ⟨fun he hother => hostEvent_ignored hother he, hostEvent_reset s⟩

/-- An event that is no second LOAD is delivered, and the session goes on. -/
theorem drive_event {loaded : Bool} {e : HostEvent} (rest : List SessionItem)
    (hfirst : isSecondLoad e s.status loaded = false) :
    drive loaded (.event e :: rest) s = drive (loadedAfter e s.status loaded) rest (hostEvent e s) := by
  rw [drive, hfirst]

theorem drive_second_load {loaded : Bool} {e : HostEvent} (rest : List SessionItem)
    (hsecond : isSecondLoad e s.status loaded = true) :
    drive loaded (.event e :: rest) s = .refused .secondLoad := by
  rw [drive, hsecond]

/-- Settles O51: after a LOAD that fits the core is still in IDLE, where a second one is refused; RESET makes the session
forget the first. -/
theorem secondLoadBeforeStartIsRefused : Obligations.SecondLoadBeforeStartIsRefused := by
  intro c p q hfits
  have hloaded := hostEvent_load_fits (s := State.resetOf c) rfl hfits
  constructor
  · rw [drive_event _ rfl, hloaded, drive_second_load _ rfl]
  · rw [drive_event _ rfl, hloaded, drive_event _ rfl, hostEvent_reset, drive_event _ rfl]
    exact ⟨_, rfl⟩

/-- Before its end a run has no result (R39, R240). -/
theorem runResult_of_not_ended (h : s.ended = false) : s.runResult = none := by rw [State.runResult, h]

/-- After its end the result of a run is its final state (R39, R240). -/
theorem runResult_of_ended (h : s.ended = true) :
    s.runResult = some { status := s.readStatus, out := s.out, registers := s.registers, sp := s.sp, ip := s.ip,
                         stack := s.stack.reverse } := by
  rw [State.runResult, h]

/-- Settles O52: `runResult` and `exitIsZero` in each of the four statuses. -/
theorem hostReadsTheFinalStateOnlyAfterTheEnd : Obligations.HostReadsTheFinalStateOnlyAfterTheEnd := by
  intro s
  constructor
  · rintro (hstatus | hstatus)
    · exact ⟨runResult_of_not_ended (by rw [State.ended, hstatus]), by rw [State.exitIsZero, hstatus]⟩
    · exact ⟨runResult_of_not_ended (by rw [State.ended, hstatus]), by rw [State.exitIsZero, hstatus]⟩
  · rintro (hstatus | hstatus)
    · refine ⟨⟨_, runResult_of_ended (by rw [State.ended, hstatus]), rfl, rfl, rfl, rfl, rfl, fun _ => rfl⟩, ?_⟩
      simp [State.exitIsZero, hstatus]
    · refine ⟨⟨_, runResult_of_ended (by rw [State.ended, hstatus]), rfl, rfl, rfl, rfl, rfl, fun _ => rfl⟩, ?_⟩
      simp [State.exitIsZero, hstatus]

end Sys2Proof.Machine

/-! PROOF. Whole runs (spec/40_execution_step.md R119; spec/70_reset_and_hazards.md section 5; spec/20_memory.md
section 5). -/

namespace Sys2Proof.Machine

variable {s t : State}

/-- A run of `k` turns and then `n` more goes on from where the first `k` ended. -/
theorem runLoop_add {k : Nat} (n : Nat) (h : runLoop k s = .next t) : runLoop (k + n) s = runLoop n t := by
  induction k generalizing s with
  | zero =>
    obtain rfl : s = t := Host.Outcome.next.inj h
    rw [Nat.zero_add]
  | succ k ih =>
    obtain ⟨u, htick, hrest⟩ := runLoop_succ_next h
    rw [Nat.add_right_comm, runLoop_succ_of_tick htick, ih hrest]

theorem not_running_of_ended (h : s.ended = true) : s.status ≠ .running := by
  intro hrun
  rw [State.ended, hrun] at h
  cases h

/-- Settles O54: the turns after the end start from a state that is not RUNNING, which the loop leaves as it is. -/
theorem endedRunsStayEnded : Obligations.EndedRunsStayEnded := by
  intro k j s t hloop hended hkj
  obtain ⟨n, rfl⟩ := Nat.exists_eq_add_of_le hkj
  rw [runLoop_add n hloop, runLoop_stopped (not_running_of_ended hended) n]

/-- A step keeps what has been emitted: `out` changes by an append or not at all. -/
theorem step_out (h : step s = .next t) : s.out <+: t.out := by
  by_cases hsame : t.out = s.out
  · rw [hsame]
  · obtain ⟨_, b, _, _, hout⟩ := onlyPrintChangesTheOutput s t h hsame
    exact ⟨[b], hout.symm⟩

/-- Settles O55: every step keeps what has been emitted, and so does a run, by the induction over runs. -/
theorem outputOnlyGrows : Obligations.OutputOnlyGrows :=
  runLoop_induction (fun s => List.prefix_refl s.out) fun _ _ _ hstep hrest => (step_out hstep).trans hrest

/-- With NOP = 0x00 a zero byte in the buffer is a NOP: the step advances by one (20_memory.md R59). -/
theorem step_zero_byte (hrun : s.status = .running) (hlegal : s.cfg.legal = true) (hnop : s.cfg.opc.nop = 0x00#8)
    (hbound : s.ip < s.cfg.maxInsts) (hbyte : Memory.read s.instructions s.ip = 0x00#8) :
    step s = .next { s with ip := s.ip + 1 } := by
  have hopcode : s.opcodeAt s.ip = some .nop := by
    rw [State.opcodeAt, hbyte, ← hnop]
    exact Config.mnemonicOf_byte hlegal .nop
  exact step_of_whole hrun hopcode hbound

/-- Settles O56: by induction on the zero bytes that are left; beyond the last the fetch is out of range. -/
theorem fallingOffTheProgramEndsInInvalidAddress : Obligations.FallingOffTheProgramEndsInInvalidAddress := by
  intro n s hrun hlegal hnop hend hzero
  induction n generalizing s with
  | zero =>
    have hstep := step_beyond_buffer hrun hend.ge
    rw [runLoop_succ_of_tick ((tick_running hrun).trans hstep), ← hend]
    rfl
  | succ n ih =>
    have hstep := step_zero_byte hrun hlegal hnop (by omega) (hzero s.ip le_rfl)
    have hleft := ih { s with ip := s.ip + 1 } hrun hlegal hnop (by rw [← hend]; simp only; omega)
      fun a ha => hzero a (Nat.le_of_succ_le ha)
    rw [runLoop_succ_of_tick ((tick_running hrun).trans hstep), hleft]

/-- A state that a step leaves as it is stays so for any number of turns. -/
theorem runLoop_of_step_eq_self (hrun : s.status = .running) (hstep : step s = .next s) (k : Nat) :
    runLoop k s = .next s := by
  induction k with
  | zero => rfl
  | succ k ih => rw [runLoop_succ_of_tick ((tick_running hrun).trans hstep), ih]

/-- Settles O57: the bytes decode to the jump, whose commit writes `ip` with the value it has. -/
theorem jumpToItselfNeverEnds : Obligations.JumpToItselfNeverEnds := by
  intro k s hrun hlegal htarget hfits hbytes
  have hwf : (Instr.jmp s.ip).wellFormed s.cfg = true := by
    refine fitsSigned_iff.mpr ?_
    norm_num
    omega
  have hdecode : s.decodeHere = _ := decodeOfEncodeIsTheInstruction s.cfg s.instructions s.ip (.jmp s.ip) hlegal hwf
    hfits hbytes
  have hstep : step s = .next s := by
    rw [step_running hrun, hdecode]
    exact exec_jmp_commit (by omega)
  exact runLoop_of_step_eq_self hrun hstep k

end Sys2Proof.Machine
